-- ==== Sys2Proof/Word.lean ====
section
/-! DEFINITION. The word types of `mc8` (R10, R12): 8-bit bytes and registers, 16-bit addresses and
instruction words, 4-bit fields. Only the types: every operation on them that a rule gives stands in
Decode.lean or under Machine/. -/
namespace Sys2Proof

/-- A register's value, and one byte of memory: `XLEN` = 8 bits (R10, R20, R36). -/
abbrev Byte := BitVec 8

/-- An address: `ALEN` = 16 bits (R10, R36). -/
abbrev Addr := BitVec 16

/-- An instruction word: `ILEN` = 16 bits (R10, R70). -/
abbrev InstrWord := BitVec 16

/-- A 4-bit field of the instruction word (R72): a condition mask, an argument, an opcode. -/
abbrev Nibble := BitVec 4

/-- A register's number. The 4-bit field names the 16 registers and nothing else, so no number is out of
range (R20). -/
abbrev RegIdx := Nibble

/-- The status register ST is x[11] (R21, R25). -/
abbrev Reg.st : RegIdx := 11#4
/-- The high byte of the stack pointer by software convention is x[12] (R21, R24). -/
abbrev Reg.sph : RegIdx := 12#4
/-- The low byte of the stack pointer by software convention is x[13] (R21, R24). -/
abbrev Reg.spl : RegIdx := 13#4
/-- The high byte of the program counter is x[14] (R21, R23). -/
abbrev Reg.pch : RegIdx := 14#4
/-- The low byte of the program counter is x[15] (R21, R23). -/
abbrev Reg.pcl : RegIdx := 15#4

end Sys2Proof
end

