-- ==== Sys2Proof/Syntax.lean ====
section
/-! DEFINITION. The instructions of `mc8`, one constructor per row of spec/opcode_table.json (R75).
The two signed immediates are held as the integers they stand for (R74); every other field is the
pattern of bits the word holds. -/
namespace Sys2Proof

/-- The 16 instructions (R75), each with the fields its format uses (R73). -/
inductive Instr where
  /-- `hlt`, format N (R145). -/
  | hlt
  /-- `put a ii`, format RI: x[a] <- imm8 (R100). -/
  | put (a : RegIdx) (imm : Byte)
  /-- `add a b c`, format RRR (R101). -/
  | add (a b c : RegIdx)
  /-- `sub a b c`, format RRR (R102). -/
  | sub (a b c : RegIdx)
  /-- `and a b c`, format RRR (R103). -/
  | and (a b c : RegIdx)
  /-- `or a b c`, format RRR (R104). -/
  | or (a b c : RegIdx)
  /-- `xor a b c`, format RRR (R105). -/
  | xor (a b c : RegIdx)
  /-- `shl a b c`, format RRR (R106). -/
  | shl (a b c : RegIdx)
  /-- `shr a b c`, format RRR (R107). -/
  | shr (a b c : RegIdx)
  /-- `addi a b s`, format RRS: `s` is the signed addend, -8 to +7 (R108, R74). -/
  | addi (a b : RegIdx) (s : Int)
  /-- `ld a b c`, format RRR (R120). -/
  | ld (a b c : RegIdx)
  /-- `st a b c`, format RRR (R121). -/
  | st (a b c : RegIdx)
  /-- `cmp a`, format R (R138). -/
  | cmp (a : RegIdx)
  /-- `br m dd`, format B: `disp` is the signed byte displacement, -128 to +127 (R130, R74). -/
  | br (mask : Nibble) (disp : Int)
  /-- `jmp b c`, format J (R134). -/
  | jmp (b c : RegIdx)
  /-- `trap a ii`, format RI: argument `arg`, Trap Table index `index` (R147). -/
  | trap (arg : Nibble) (index : Byte)
  deriving DecidableEq, Repr

end Sys2Proof
end

