-- ==== Sys2Proof/WellFormed.lean ====
section
/-! DEFINITION. Which instructions have an encoding: a signed immediate must fit its field (R74, R94).
Every other field fits by its type (R20). -/
namespace Sys2Proof

/-- `d` is representable in an `n`-bit two's-complement field: `-2^(n-1) ≤ d < 2^(n-1)` (R94). -/
def fitsSigned (n : Nat) (d : Int) : Bool :=
  decide (-(2 ^ (n - 1) : Int) ≤ d) && decide (d < (2 ^ (n - 1) : Int))

/-- The instruction has an encoding: `addi`'s addend is -8 to +7 and `br`'s displacement -128 to +127
(R74). -/
def Instr.wellFormed : Instr → Bool
  | .addi _ _ s => fitsSigned 4 s
  | .br _ d => fitsSigned 8 d
  | .hlt | .put _ _ | .add _ _ _ | .sub _ _ _ | .and _ _ _ | .or _ _ _ | .xor _ _ _
  | .shl _ _ _ | .shr _ _ _ | .ld _ _ _ | .st _ _ _ | .cmp _ | .jmp _ _ | .trap _ _ => true

end Sys2Proof
end

