-- ==== Sys2Proof/Decode.lean ====
section
/-! DEFINITION. From bits to instructions and back (R70 to R79, R92). The decoder is total on words (R76);
on bytes it refuses, by name, only a string too short to hold a word. -/
namespace Sys2Proof

/-! ### Fields of the instruction word (R72) -/

/-- `op` = w[15:12]. -/
def opField (w : InstrWord) : Nibble := w.extractLsb' 12 4
/-- `a` = w[11:8]. -/
def aField (w : InstrWord) : Nibble := w.extractLsb' 8 4
/-- `b` = w[7:4]. -/
def bField (w : InstrWord) : Nibble := w.extractLsb' 4 4
/-- `c` = w[3:0]. -/
def cField (w : InstrWord) : Nibble := w.extractLsb' 0 4
/-- `imm8` = w[7:0] = `b : c`. -/
def immField (w : InstrWord) : Byte := w.extractLsb' 0 8

/-- The word `op : a : b : c` (R72). -/
def wordRRR (op a b c : Nibble) : InstrWord := op ++ a ++ b ++ c

/-- The word `op : a : imm8` (R72). -/
def wordRI (op a : Nibble) (imm : Byte) : InstrWord := op ++ a ++ imm

/-! ### Byte order of the instruction word (R53, R71) -/

/-- The word whose byte at the lower address is `first`: big-endian (R53). -/
def wordOfBytes (first second : Byte) : InstrWord := first ++ second

/-- The byte of a word that lies at the lower address, bits 15:8 (R53). -/
def firstByte (w : InstrWord) : Byte := w.extractLsb' 8 8

/-- The byte of a word that lies at the higher address, bits 7:0 (R53). -/
def secondByte (w : InstrWord) : Byte := w.extractLsb' 0 8

/-! ### The decoder (R75, R76) -/

/-- The instruction a word stands for: the opcode selects one of 16 entries (R75), every word has one
(R76), and the bits a format does not use are not examined (R77). The last arm is opcode 0xF, the one
value left. -/
def decodeWord (w : InstrWord) : Instr :=
  match opField w with
  | 0x0#4 => .hlt
  | 0x1#4 => .put (aField w) (immField w)
  | 0x2#4 => .add (aField w) (bField w) (cField w)
  | 0x3#4 => .sub (aField w) (bField w) (cField w)
  | 0x4#4 => .and (aField w) (bField w) (cField w)
  | 0x5#4 => .or (aField w) (bField w) (cField w)
  | 0x6#4 => .xor (aField w) (bField w) (cField w)
  | 0x7#4 => .shl (aField w) (bField w) (cField w)
  | 0x8#4 => .shr (aField w) (bField w) (cField w)
  | 0x9#4 => .addi (aField w) (bField w) (cField w).toInt
  | 0xA#4 => .ld (aField w) (bField w) (cField w)
  | 0xB#4 => .st (aField w) (bField w) (cField w)
  | 0xC#4 => .cmp (aField w)
  | 0xD#4 => .br (aField w) (immField w).toInt
  | 0xE#4 => .jmp (bField w) (cField w)
  | _ => .trap (aField w) (immField w)

/-- Why a string of bytes holds no instruction. -/
inductive DecodeError where
  /-- Fewer than the two bytes of one instruction word (R70). -/
  | truncated
  deriving DecidableEq, Repr

/-- The instruction at the head of a string of bytes, with the bytes after it (R70, R71). -/
def decodeBytes : List Byte → Except DecodeError (Instr × List Byte)
  | first :: second :: rest => .ok (decodeWord (wordOfBytes first second), rest)
  | [_] => .error .truncated
  | [] => .error .truncated

/-- The two bytes, as memory holds them, of an instruction whose lowest `nbits` bits are `w` and whose
other bits are 0. -/
def tableBytes (nbits w : Nat) : List Byte :=
  let v : InstrWord := BitVec.ofNat 16 (w % 2 ^ nbits)
  [firstByte v, secondByte v]

/-- What the decoder reads from the word of an opcode-table row. -/
def decodeTableWord (nbits w : Nat) : Option Instr :=
  match decodeBytes (tableBytes nbits w) with
  | .ok (i, _) => some i
  | .error _ => none

/-! ### The encoder (R75, R92) -/

/-- The opcode number of an instruction (R75). -/
def Instr.opcode : Instr → Nibble
  | .hlt => 0x0#4
  | .put _ _ => 0x1#4
  | .add _ _ _ => 0x2#4
  | .sub _ _ _ => 0x3#4
  | .and _ _ _ => 0x4#4
  | .or _ _ _ => 0x5#4
  | .xor _ _ _ => 0x6#4
  | .shl _ _ _ => 0x7#4
  | .shr _ _ _ => 0x8#4
  | .addi _ _ _ => 0x9#4
  | .ld _ _ _ => 0xA#4
  | .st _ _ _ => 0xB#4
  | .cmp _ => 0xC#4
  | .br _ _ => 0xD#4
  | .jmp _ _ => 0xE#4
  | .trap _ _ => 0xF#4

/-- The word of an instruction (R75, R100 to R108, R120, R121, R130, R134, R138, R145, R147). Fields a
format does not use are 0 (R92). A signed immediate is bit-masked into its field (R94). -/
def encode : Instr → InstrWord
  | .hlt => wordRRR 0x0#4 0 0 0
  | .put a imm => wordRI 0x1#4 a imm
  | .add a b c => wordRRR 0x2#4 a b c
  | .sub a b c => wordRRR 0x3#4 a b c
  | .and a b c => wordRRR 0x4#4 a b c
  | .or a b c => wordRRR 0x5#4 a b c
  | .xor a b c => wordRRR 0x6#4 a b c
  | .shl a b c => wordRRR 0x7#4 a b c
  | .shr a b c => wordRRR 0x8#4 a b c
  | .addi a b s => wordRRR 0x9#4 a b (BitVec.ofInt 4 s)
  | .ld a b c => wordRRR 0xA#4 a b c
  | .st a b c => wordRRR 0xB#4 a b c
  | .cmp a => wordRRR 0xC#4 a 0 0
  | .br m d => wordRI 0xD#4 m (BitVec.ofInt 8 d)
  | .jmp b c => wordRRR 0xE#4 0 b c
  | .trap arg n => wordRI 0xF#4 arg n

/-- The bytes of an instruction as memory holds them, high byte first (R71, R92). -/
def encodeBytes (i : Instr) : List Byte := [firstByte (encode i), secondByte (encode i)]

/-- The bits of a word that its format uses (R73): all but bits 11:0 of `hlt`, 7:0 of `cmp` and 11:8 of
`jmp`. -/
def usedBits (op : Nibble) : InstrWord :=
  match op with
  | 0x0#4 => 0xF000#16
  | 0xC#4 => 0xFF00#16
  | 0xE#4 => 0xF0FF#16
  | _ => 0xFFFF#16

end Sys2Proof
end

