-- ==== Sys2Proof/Config.lean ====
section
/-! DEFINITION. What `mc8` fixes (R10), what the reset state takes where the spec leaves a value open
(R11), and the free values: what a Trap Table entry does (R8, R166). -/
namespace Sys2Proof

/-! ### Numbers -/

/-- `SHAMT_BITS`: how many low bits of the amount register a shift uses (R10, R111). -/
def Config.shamtBits : Nat := 3

/-- `ST_RESET`: the status register after reset (R10, R192). -/
def Config.stReset : Byte := 0x00#8

/-- `RESET_PC` at its default (R11, R191). -/
def Config.resetPc : Addr := 0x0000#16

/-- DESIGN CHOICE (log 1): the value of x[0] to x[10], x[12], x[13] after `State.reset`, which the spec
leaves open (R193). -/
def Config.regInit : Byte := 0x00#8

/-- DESIGN CHOICE (log 2): what a byte of memory reads as that nothing has written (R194). -/
def Config.memInit : Byte := 0x00#8

/-- The largest Trap Table: an 8-bit index reaches 256 entries (R11). -/
def Config.maxTraps : Nat := 256

/-! ### The trap interface (R8, R164 to R167) -/

/-- One use a handler makes of the capability interface: the four operations of R8. -/
inductive HandlerOp where
  | regRead (i : RegIdx)
  | regWrite (i : RegIdx) (v : Byte)
  | memRead (addr : Addr)
  | memWrite (addr : Addr) (v : Byte)
  deriving DecidableEq, Repr, Inhabited

/-- The outside world that handlers talk to, as far as the spec names any of it: the console of R167. -/
structure World where
  /-- Bytes the console will still deliver, next one first. -/
  consoleIn : List Byte
  /-- Bytes the console has received, first one first. -/
  consoleOut : List Byte
  deriving DecidableEq, Repr, Inhabited

/-- How one invocation of a handler comes out (R166): it makes its accesses in the order of the list and
leaves the world as `world`, or it never returns. -/
inductive HandlerAnswer where
  | returns (ops : List HandlerOp) (world : World)
  | blocks
  deriving DecidableEq, Repr, Inhabited

/-- One entry of the Trap Table (R8). -/
inductive TrapEntry where
  /-- A handler of which nothing is assumed (R166). -/
  | oracle
  /-- `CONOUT` of R167. -/
  | conout
  /-- `CONIN` of R167. -/
  | conin
  deriving DecidableEq, Repr

/-- FREE VALUE (log 5): the answer of an oracle handler that the state's environment does not script,
from all that R166 lets it depend on (the index, the argument, the registers, the memory, the world)
and a count that makes every invocation a fresh one. It has no body, so nothing can be proved of it. -/
opaque Config.handlerAnswer (n : Byte) (arg : Nibble) (regs : Vector Byte 16)
    (mem : List (Nat × Byte)) (world : World) (served : Nat) : HandlerAnswer

end Sys2Proof
end

