-- ==== Sys2Proof/Machine/State.lean ====
section
/-! DEFINITION. The machine's state as plain data (spec/10_state.md section 1), the reasons a step can
stop, and the state after reset (R190 to R195). -/
namespace Sys2Proof.Machine

/-- The memory of R36 as the cells that differ from `Config.memInit`, addresses strictly rising. -/
abbrev Memory := List Host.Cell

/-- The one cause of a fault (R160). -/
inductive FaultCause where
  | trapIndexOutOfBounds
  deriving DecidableEq, Repr

/-- What the fault latch holds: `(cause, w, pc0)` (R38, R161). -/
structure FaultRecord where
  cause : FaultCause
  /-- The instruction word of the faulting `trap`. -/
  word : InstrWord
  /-- The address of the faulting `trap`. -/
  pc0 : Addr
  deriving DecidableEq, Repr

/-- The environment of R39, which the model carries only to answer handlers. -/
structure Environment where
  world : World
  /-- The model's own field (log 5): answers to the next invocations of oracle handlers, next one first. -/
  answers : List HandlerAnswer
  /-- The model's own field (log 5): how many oracle handlers have been invoked. -/
  served : Nat
  deriving DecidableEq, Repr

/-- The state of the machine. -/
structure State where
  /-- x[0] to x[15] (R20); ST, SP and PC live inside them (R23, R24, R25). -/
  regs : Vector Byte 16
  /-- mem[0x0000 .. 0xFFFF] (R36). -/
  mem : Memory
  /-- The fault latch (R38). -/
  fault : Option FaultRecord
  /-- The Trap Table (R8); `TRAP_COUNT` is its length. No step writes it (log 4). -/
  trapTable : List TrapEntry
  env : Environment
  deriving DecidableEq, Repr

/-- Why a step ends without a next state and the machine stops. -/
inductive Fault where
  /-- Raised by `step` on a core whose fault latch is set: the core does not execute, and the run has
  ended with the latched record (R38, R161). Safe: the machine stops where the spec says it does. -/
  | latched (r : FaultRecord)
  /-- Raised by `trap` when the handler of entry `n` never returns: the step never completes (R165, R166,
  U14). Stuck, not a fault of the core. Safe: no claim about a state after it can be proved. -/
  | handlerNeverReturns (n : Byte)
  deriving DecidableEq, Repr

/-- Why an operation is given no meaning. -/
inductive Refusal where
  /-- Raised by a refused arm of `exec`, of which none is left: an instruction without a meaning. Safe. -/
  | notModelled (mnemonic : String)
  /-- Raised by `State.load` on a byte string of fewer than 2 bytes, which is no image (R196). Safe. -/
  | notAnImage
  deriving DecidableEq, Repr

/-- What the host supplies with `reset()`: the open parameters of R11. `regInit` gives x[0] to x[10],
x[12] and x[13]; its other places are not used. -/
structure ResetParams where
  resetPc : Addr
  regInit : Vector Byte 16
  memInit : Memory
  trapTable : List TrapEntry
  env : Environment
  deriving DecidableEq, Repr

/-- `reset()` (R190): PC = `RESET_PC` (R191), ST = `ST_RESET` (R192), the other registers `REG_INIT`
(R193), memory `MEM_INIT` (R194), the latch none (R195). -/
def State.resetWith (p : ResetParams) : State where
  regs := ((p.regInit.set 11 Config.stReset).set 14 (p.resetPc.extractLsb' 8 8)).set 15
    (p.resetPc.extractLsb' 0 8)
  mem := p.memInit
  fault := none
  trapTable := p.trapTable
  env := p.env

/-- The parameters of `State.reset`: `RESET_PC` at its default (R191, log 3), and named values where the
spec leaves them open: registers (log 1), memory (log 2), the Trap Table (log 4), the environment (logs 5
and 6). -/
def ResetParams.default : ResetParams where
  resetPc := Config.resetPc
  regInit := Vector.replicate 16 Config.regInit
  memInit := []
  trapTable := []
  env := { world := { consoleIn := [], consoleOut := [] }, answers := [], served := 0 }

/-- The machine right after reset. -/
def State.reset : State := State.resetWith ResetParams.default

end Sys2Proof.Machine
end

