-- ==== Sys2Proof/Machine/Ops.lean ====
section
/-! DEFINITION. The named operations over memory and registers: the memory controller (R50), the register
file (R22), the program counter (R23), the fetch and the advance of a step (R31), and raising the fault
(R161). These, with the trap multiplexer, are the only ways a meaning touches the state (R15). -/
namespace Sys2Proof.Machine

/-! ### The memory controller (R50) -/

/-- What an address reads as that the list does not hold (R194, log 2). -/
def Memory.unlisted : Byte := Config.memInit

/-- The canonical form: addresses below 65536 and strictly rising, and no cell that holds what an
unlisted address reads as. -/
def Memory.wf : Memory → Bool
  | [] => true
  | c :: rest =>
    decide (c.1 < 65536) && decide (c.2 ≠ Memory.unlisted) && rest.all (fun d => decide (c.1 < d.1)) &&
      Memory.wf rest

/-- The byte the list holds for address `k`. -/
def Memory.lookup (k : Nat) : Memory → Byte
  | [] => Memory.unlisted
  | c :: rest => if c.1 = k then c.2 else Memory.lookup k rest

/-- The list without address `k`. -/
def Memory.erase (k : Nat) : Memory → Memory
  | [] => []
  | c :: rest => if c.1 = k then Memory.erase k rest else c :: Memory.erase k rest

/-- The list with a cell for address `k` before the first greater address. -/
def Memory.insert (k : Nat) (v : Byte) : Memory → Memory
  | [] => [(k, v)]
  | c :: rest => if k < c.1 then (k, v) :: c :: rest else c :: Memory.insert k v rest

/-- `MemRead(addr, 1)`: the byte at `addr` (R50). It never fails and changes nothing (R56). -/
def Memory.read (m : Memory) (addr : Addr) : Byte := m.lookup addr.toNat

/-- `MemWrite(addr, 1, v)`: `v` at `addr`, every other byte as it was (R50). Writing the value an
unlisted address reads as removes the cell. -/
def Memory.write (m : Memory) (addr : Addr) (v : Byte) : Memory :=
  if v = Memory.unlisted then m.erase addr.toNat else (m.erase addr.toNat).insert addr.toNat v

/-- The core's read of one byte. -/
def State.readMem (s : State) (addr : Addr) : Byte := s.mem.read addr

/-- The core's write of one byte. -/
def State.writeMem (s : State) (addr : Addr) (v : Byte) : State := { s with mem := s.mem.write addr v }

/-! ### The register file (R20, R22) -/

/-- `x[i]` (R15). -/
def State.readReg (s : State) (i : RegIdx) : Byte := s.regs[i.toNat]'i.isLt

/-- `x[i] <- v` (R15). No register is hardwired or read-only (R22). -/
def State.writeReg (s : State) (i : RegIdx) (v : Byte) : State :=
  { s with regs := s.regs.set i.toNat v i.isLt }

/-- The 16-bit value `hi : lo` (R12). -/
def pair (hi lo : Byte) : Addr := hi ++ lo

/-- Bits 15:8 of a 16-bit value. -/
def hiByte (t : Addr) : Byte := t.extractLsb' 8 8

/-- Bits 7:0 of a 16-bit value. -/
def loByte (t : Addr) : Byte := t.extractLsb' 0 8

/-! ### The program counter and the step's first phases (R23, R31) -/

/-- PC = `x[14] : x[15]` (R23). -/
def State.pc (s : State) : Addr := pair (s.readReg Reg.pch) (s.readReg Reg.pcl)

/-- `PC <- t`: both halves in the same step (R15). -/
def State.setPc (s : State) (t : Addr) : State :=
  (s.writeReg Reg.pch (hiByte t)).writeReg Reg.pcl (loByte t)

/-- Phase 1 of the step: the word at PC, its first byte bits 15:8, the second address modulo 65536
(R31, R53). -/
def State.fetchWord (s : State) : InstrWord := wordOfBytes (s.readMem s.pc) (s.readMem (s.pc + 1))

/-- Phase 2 of the step: `PC <- pc0 + 2`, modulo 65536 (R31). -/
def State.advance (s : State) : State := s.setPc (s.pc + 2)

/-- `pc0`, the address of the instruction being executed, in the state an execute rule starts from, whose
PC the advance phase has set to `pc0 + 2` (R15, R16, R31; DEDUCED, log 12). -/
def State.pc0 (s : State) : Addr := s.pc - 2

/-! ### The fault (R160, R161) -/

/-- `raise Fault(cause, w, pc0)`: the latch takes the record, and the step ends (R161). The core has no
other exception entry and no return from one (R161, R169). -/
def State.raiseFault (s : State) (cause : FaultCause) (w : InstrWord) (pc0 : Addr) : State :=
  { s with fault := some { cause := cause, word := w, pc0 := pc0 } }

/-- The number of a cause: 1 is `TrapIndexOutOfBounds` (R160). -/
def FaultCause.code : FaultCause → Nat
  | .trapIndexOutOfBounds => 1

/-- The cause code the latch shows: 0 means no fault (R160). -/
def State.faultCode (s : State) : Nat :=
  match s.fault with
  | none => 0
  | some r => r.cause.code

end Sys2Proof.Machine
end

