-- ==== Sys2Proof/Machine/Operands.lean ====
section
/-! DEFINITION. Every operand form of the instructions (R52, R74, R111, R122, R130). A register operand is
`State.readReg` itself. -/
namespace Sys2Proof.Machine

/-- The register pair `x[b] : x[c]`, the address of `ld` and `st` and the target of `jmp`: the register
named first is the high byte (R52, R122). -/
def State.regPair (s : State) (b c : RegIdx) : Addr := pair (s.readReg b) (s.readReg c)

/-- The amount of a shift: the low `SHAMT_BITS` bits of the amount register (R111). -/
def shiftAmount (v : Byte) : Nat := v.toNat % 2 ^ Config.shamtBits

/-- The addend of `addi` at register width: `sext_8` of its field (R74, R108). -/
def addend (s : Int) : Byte := BitVec.ofInt 8 s

/-- The displacement of `br` at address width: `sext_16` of its field (R74, R130). -/
def displacement (d : Int) : Addr := BitVec.ofInt 16 d

/-- The index of `trap`: its field, zero-extended (R74). -/
def trapIndex (n : Byte) : Nat := n.toNat

end Sys2Proof.Machine
end

