-- ==== Sys2Proof/Machine/Alu.lean ====
section
/-! DEFINITION. Register and ALU instructions (spec/40_alu.md, R100 to R111). Each reads its sources, then
writes x[a], and touches nothing else (R109). Every meaning starts from the state after the advance
phase (R16). -/
namespace Sys2Proof.Machine

/-- The shape of the family: x[a] takes a result computed from the state (R109). -/
def writeResult (a : RegIdx) (v : Byte) (s : State) : Host.Outcome State Fault Refusal :=
  .next (s.writeReg a v)

/-- A left shift by a number of places: zeros enter at bit 0, bits past bit 7 are lost (R106). -/
def shiftLeft (v : Byte) (n : Nat) : Byte := v <<< n

/-- A logical right shift: zeros enter at bit 7, bits past bit 0 are lost (R107). -/
def shiftRight (v : Byte) (n : Nat) : Byte := v >>> n

/-- `put` (R100). -/
def execPut (a : RegIdx) (imm : Byte) (s : State) : Host.Outcome State Fault Refusal :=
  writeResult a imm s

/-- `add` (R101). -/
def execAdd (a b c : RegIdx) (s : State) : Host.Outcome State Fault Refusal :=
  writeResult a (s.readReg b + s.readReg c) s

/-- `sub` (R102). -/
def execSub (a b c : RegIdx) (s : State) : Host.Outcome State Fault Refusal :=
  writeResult a (s.readReg b - s.readReg c) s

/-- `and` (R103). -/
def execAnd (a b c : RegIdx) (s : State) : Host.Outcome State Fault Refusal :=
  writeResult a (s.readReg b &&& s.readReg c) s

/-- `or` (R104). -/
def execOr (a b c : RegIdx) (s : State) : Host.Outcome State Fault Refusal :=
  writeResult a (s.readReg b ||| s.readReg c) s

/-- `xor` (R105). -/
def execXor (a b c : RegIdx) (s : State) : Host.Outcome State Fault Refusal :=
  writeResult a (s.readReg b ^^^ s.readReg c) s

/-- `shl` (R106, R111). -/
def execShl (a b c : RegIdx) (s : State) : Host.Outcome State Fault Refusal :=
  writeResult a (shiftLeft (s.readReg b) (shiftAmount (s.readReg c))) s

/-- `shr` (R107, R111). -/
def execShr (a b c : RegIdx) (s : State) : Host.Outcome State Fault Refusal :=
  writeResult a (shiftRight (s.readReg b) (shiftAmount (s.readReg c))) s

/-- `addi` (R108). -/
def execAddi (a b : RegIdx) (imm : Int) (s : State) : Host.Outcome State Fault Refusal :=
  writeResult a (s.readReg b + addend imm) s

end Sys2Proof.Machine
end

