-- ==== Sys2Proof/Machine/Flags.lean ====
section
/-! DEFINITION. The status register's fields (R25), the condition bits `cmp` computes (R138) and the test
`br` makes of them (R130). Only `cmp` computes condition bits (R26). -/
namespace Sys2Proof.Machine

/-- ST = x[11] (R25). -/
def State.st (s : State) : Byte := s.readReg Reg.st

/-- H, bit 7 of ST (R25). -/
def haltedBit (st : Byte) : Bool := st.getLsbD 7
/-- P, bit 2 of ST (R25). -/
def positiveBit (st : Byte) : Bool := st.getLsbD 2
/-- N, bit 1 of ST (R25). -/
def negativeBit (st : Byte) : Bool := st.getLsbD 1
/-- Z, bit 0 of ST (R25). -/
def zeroBit (st : Byte) : Bool := st.getLsbD 0

/-- `halted()` (R27). -/
def State.halted (s : State) : Bool := haltedBit s.st

/-- z: the value is 0x00 (R138). -/
def isZero (v : Byte) : Bool := decide (v = 0x00#8)
/-- n: bit 7 of the value (R138). -/
def isNegative (v : Byte) : Bool := v.getLsbD 7
/-- p: the value is not 0x00 and its bit 7 is 0 (R138). -/
def isPositive (v : Byte) : Bool := decide (v ≠ 0x00#8) && !v.getLsbD 7

/-- ST after a compare of `v`: bits 2:0 are p, n, z and bits 7:3 are kept (R138). -/
def comparedStatus (st v : Byte) : Byte :=
  (st &&& 0xF8#8) ||| ((BitVec.ofBool (isPositive v)).setWidth 8 <<< 2) |||
    ((BitVec.ofBool (isNegative v)).setWidth 8 <<< 1) ||| (BitVec.ofBool (isZero v)).setWidth 8

/-- ST after `hlt`: H set, bits 6:0 kept (R145). -/
def haltedStatus (st : Byte) : Byte := st ||| 0x80#8

/-- Whether `br` is taken: mask bit 3, or any of Z, N, P that mask bits 0, 1, 2 select (R130). -/
def branchTaken (mask : Nibble) (st : Byte) : Bool :=
  mask.getLsbD 3 || decide (mask.extractLsb' 0 3 &&& st.extractLsb' 0 3 ≠ 0#3)

end Sys2Proof.Machine
end

