-- ==== Sys2Proof/Machine/Branch.lean ====
section
/-! DEFINITION. Branch, jump and compare (spec/42_branch_compare.md, R130 to R138). -/
namespace Sys2Proof.Machine

/-- `br` (R130): the displacement is added to `pc0`, the address of the `br` itself (R131). -/
def execBr (mask : Nibble) (disp : Int) (s : State) : Host.Outcome State Fault Refusal :=
  .next (if branchTaken mask s.st then s.setPc (s.pc0 + displacement disp) else s)

/-- `jmp` (R134): both halves of the target are read before PC is written. -/
def execJmp (b c : RegIdx) (s : State) : Host.Outcome State Fault Refusal :=
  .next (s.setPc (s.regPair b c))

/-- `cmp` (R138): x[a] is read before ST is written. -/
def execCmp (a : RegIdx) (s : State) : Host.Outcome State Fault Refusal :=
  .next (s.writeReg Reg.st (comparedStatus s.st (s.readReg a)))

end Sys2Proof.Machine
end

