-- ==== Sys2Proof/Machine/LoadStore.lean ====
section
/-! DEFINITION. Memory instructions (spec/41_memory_ops.md, R120 to R122). One addressing mode, the
register pair (R122); the address is built before the destination is written (R120). -/
namespace Sys2Proof.Machine

/-- `ld` (R120). -/
def execLd (a b c : RegIdx) (s : State) : Host.Outcome State Fault Refusal :=
  .next (s.writeReg a (s.readMem (s.regPair b c)))

/-- `st` (R121). -/
def execSt (a b c : RegIdx) (s : State) : Host.Outcome State Fault Refusal :=
  .next (s.writeMem (s.regPair b c) (s.readReg a))

end Sys2Proof.Machine
end

