-- ==== Sys2Proof/Machine/TrapMux.lean ====
section
/-! DEFINITION. The trap multiplexer (R2, R8, R164 to R169): the index check, the choice of the entry, and
what the entry does with the registers and the memory. -/
namespace Sys2Proof.Machine

/-- `TRAP_COUNT` (R11). -/
def State.trapCount (s : State) : Nat := s.trapTable.length

/-- The state with the outside world a handler left (R166). -/
def State.setWorld (s : State) (w : World) : State := { s with env := { s.env with world := w } }

/-- One access of a handler, with the meaning it has for the core (R8). A read changes nothing (R56). -/
def State.applyHandlerOp (s : State) : HandlerOp → State
  | .regRead _ => s
  | .regWrite i v => s.writeReg i v
  | .memRead _ => s
  | .memWrite addr v => s.writeMem addr v

/-- A handler's accesses in the order it makes them (R60, R165). -/
def State.applyHandlerOps (s : State) : List HandlerOp → State
  | [] => s
  | op :: ops => (s.applyHandlerOp op).applyHandlerOps ops

/-- The answer an oracle handler gives to this invocation: the next one the environment holds, else a free
value (R166, log 5). -/
def State.oracleAnswer (s : State) (n : Byte) (arg : Nibble) : HandlerAnswer :=
  match s.env.answers with
  | answer :: _ => answer
  | [] => Config.handlerAnswer n arg s.regs s.mem s.env.world s.env.served

/-- The state with one more oracle invocation served (log 5). -/
def State.serveOracle (s : State) : State :=
  { s with env := { s.env with answers := s.env.answers.tail, served := s.env.served + 1 } }

/-- What a handler's answer makes of the state; none if the handler never returns (R166). -/
def State.applyAnswer (s : State) : HandlerAnswer → Option State
  | .returns ops world => some ((s.applyHandlerOps ops).setWorld world)
  | .blocks => none

/-- `CONOUT(arg)`: append `RegRead(arg)` to the console output (R167). -/
def State.conout (s : State) (arg : Nibble) : State :=
  s.setWorld { s.env.world with consoleOut := s.env.world.consoleOut ++ [s.readReg arg] }

/-- `CONIN(arg)`: remove the next byte of the console input and `RegWrite(arg, byte)`; with no byte to
come it waits for ever (R167, log 6). -/
def State.conin (s : State) (arg : Nibble) : Option State :=
  match s.env.world.consoleIn with
  | [] => none
  | v :: rest => some ((s.writeReg arg v).setWorld { s.env.world with consoleIn := rest })

/-- `InvokeTrap(n, arg)` on the entry it selects: the state the handler left, none if the handler never
returns (R164, R166). Nothing is saved and nothing restored (R164, R169). -/
def State.invokeTrap (s : State) (entry : TrapEntry) (n : Byte) (arg : Nibble) : Option State :=
  match entry with
  | .oracle => s.serveOracle.applyAnswer (s.oracleAnswer n arg)
  | .conout => some (s.conout arg)
  | .conin => s.conin arg

end Sys2Proof.Machine
end

