-- ==== Sys2Proof/Machine/System.lean ====
section
/-! DEFINITION. System instructions (spec/43_system.md, R145, R147). -/
namespace Sys2Proof.Machine

/-- `hlt` (R145). -/
def execHlt (s : State) : Host.Outcome State Fault Refusal :=
  .next (s.writeReg Reg.st (haltedStatus s.st))

/-- `trap` (R147): an index at or beyond `TRAP_COUNT` raises the fault, with the word of this instruction
and its address (R160); an index inside the Trap Table invokes its entry (R164). A handler that never
returns leaves the step without a next state (R165, R166). -/
def execTrap (arg : Nibble) (n : Byte) (s : State) : Host.Outcome State Fault Refusal :=
  match s.trapTable[trapIndex n]? with
  | none => .next (s.raiseFault .trapIndexOutOfBounds (encode (.trap arg n)) s.pc0)
  | some entry =>
    match s.invokeTrap entry n arg with
    | some t => .next t
    | none => .fault (.handlerNeverReturns n)

end Sys2Proof.Machine
end

