-- ==== Sys2Proof/Machine/Dispatch.lean ====
section
/-! DEFINITION. Phase 4 of the step (R31): the opcode selects the meaning (R75). One arm per constructor
of Instr; the state is the one after the advance phase (R16). -/
namespace Sys2Proof.Machine

/-- The execute phase (R31, R75). -/
def exec (i : Instr) (s : State) : Host.Outcome State Fault Refusal :=
  match i with
  | .hlt => Sys2Proof.Machine.execHlt s
  | .put a imm => Sys2Proof.Machine.execPut a imm s
  | .add a b c => Sys2Proof.Machine.execAdd a b c s
  | .sub a b c => Sys2Proof.Machine.execSub a b c s
  | .and a b c => Sys2Proof.Machine.execAnd a b c s
  | .or a b c => Sys2Proof.Machine.execOr a b c s
  | .xor a b c => Sys2Proof.Machine.execXor a b c s
  | .shl a b c => Sys2Proof.Machine.execShl a b c s
  | .shr a b c => Sys2Proof.Machine.execShr a b c s
  | .addi a b imm => Sys2Proof.Machine.execAddi a b imm s
  | .ld a b c => Sys2Proof.Machine.execLd a b c s
  | .st a b c => Sys2Proof.Machine.execSt a b c s
  | .cmp a => Sys2Proof.Machine.execCmp a s
  | .br mask disp => Sys2Proof.Machine.execBr mask disp s
  | .jmp b c => Sys2Proof.Machine.execJmp b c s
  | .trap arg n => Sys2Proof.Machine.execTrap arg n s

end Sys2Proof.Machine
end

