-- ==== Sys2Proof/Machine/Step.lean ====
section
/-! DEFINITION. One step (R31) and the placing of an instruction where the next step fetches. -/
namespace Sys2Proof.Machine

/-- `step()` (R31): fetch, advance, decode, dispatch. It does not look at the halted flag (R32). A core
whose fault latch is set does not execute (R38). -/
def step (s : State) : Host.Outcome State Fault Refusal :=
  match s.fault with
  | some r => .fault (.latched r)
  | none => exec (decodeWord s.fetchWord) s.advance

/-- The state with an opcode-table word, lowest `nbits` bits `w`, at PC and the byte after it, each
address modulo 65536. -/
def State.withFetchWord (s : State) (nbits w : Nat) : State :=
  match tableBytes nbits w with
  | first :: second :: _ => (s.writeMem s.pc first).writeMem (s.pc + 1) second
  | _ => s

end Sys2Proof.Machine
end

