-- ==== Sys2Proof/Machine/HostOps.lean ====
section
/-! DEFINITION. What the host does with the core (R7): loading images (R196 to R199) and the run (R33). The
other host operations stand elsewhere: `reset()` is `State.resetWith`, `step()` is `step`, `halted()` is
`State.halted` and `fault()` is the field `State.fault`. -/
namespace Sys2Proof.Machine

/-! ### Image loading (R196 to R199) -/

/-- The loader's writes from address `addr` on, one byte after the other, modulo 65536 (R197). -/
def State.placePayload (s : State) (addr : Addr) : List Byte → State
  | [] => s
  | v :: rest => (s.writeMem addr v).placePayload (addr + 1) rest

/-- `load(image)`: a two-byte big-endian origin, then the payload (R196, R197). A shorter string is no
image and is refused, memory as it was (R196). -/
def State.load (s : State) (image : List Byte) : Host.Outcome State Fault Refusal :=
  match image with
  | hi :: lo :: payload => .next (s.placePayload (pair hi lo) payload)
  | [_] => .refused .notAnImage
  | [] => .refused .notAnImage

/-- Several images, in the order the host gives them (R198). DESIGN CHOICE (log 11): at the first byte
string that is no image the whole sequence is refused; the answer carries no state, so neither what the
earlier images placed nor the later images are seen. The spec says only that the refused `load` leaves memory
as it was (R196). -/
def State.loadAll (s : State) : List (List Byte) → Host.Outcome State Fault Refusal
  | [] => .next s
  | image :: images =>
    match s.load image with
    | .next t => t.loadAll images
    | .fault r => .fault r
    | .refused r => .refused r

/-- The launch state: `reset()`, then every load, before the first step (R199). -/
def State.launch (p : ResetParams) (images : List (List Byte)) : Host.Outcome State Fault Refusal :=
  (State.resetWith p).loadAll images

/-! ### The run (R33) -/

/-- How far a run of at most so many steps has come. -/
inductive RunOutcome where
  /-- The run ended normally: the first state between steps with H = 1 (R33). -/
  | halted (s : State)
  /-- The run ended in a fault: the record and nothing else (R161, C7). -/
  | faulted (r : FaultRecord)
  /-- A step never completes: a handler that does not return (R165, U14). -/
  | stuck (r : Fault)
  /-- A step was refused. No step of this model is. -/
  | refused (r : Refusal)
  /-- All the steps were made and the run goes on. -/
  | running (s : State)
  deriving DecidableEq, Repr

/-- The host's loop, for at most so many steps: if `fault()` is not none, stop; else if `halted()` is
true, stop; else `step()` (R33). -/
def hostRun (fuel : Nat) (s : State) : RunOutcome :=
  match s.fault with
  | some r => .faulted r
  | none =>
    if s.halted then .halted s
    else
      match fuel with
      | 0 => .running s
      | k + 1 =>
        match step s with
        | .next t => hostRun k t
        | .fault r => .stuck r
        | .refused r => .refused r

end Sys2Proof.Machine
end

