-- ==== Sys2Proof/Machine/Assembler.lean ====
section
/-! DEFINITION. From assembly text to an image (R86 to R96). The assembler is software outside the hardware
block (R4); it is modelled so that the programs of the spec can be written as the spec writes them. A line
is its list of characters. -/
namespace Sys2Proof.Machine

/-- The assembler's errors (R4, R87 to R94); `labelRedefined` is the error R89 leaves without a name. -/
inductive AsmError where
  | configError
  | unknownMnemonic
  | invalidOperand
  | undefinedLabel
  | branchOutOfRange
  | labelRedefined
  deriving DecidableEq, Repr

/-- A label's name: one or more characters other than space (R89). -/
abbrev Label := List Char

/-- A statement once its line is read; what still waits for a label names it (R93, R94). -/
inductive Stmt where
  | label (name : Label)
  | bytes (bs : List Byte)
  | instr (i : Instr)
  /-- `put a h'name` (R93). -/
  | putHigh (a : RegIdx) (name : Label)
  /-- `put a l'name` (R93). -/
  | putLow (a : RegIdx) (name : Label)
  /-- `br m 'name` (R94). -/
  | brLabel (mask : Nibble) (name : Label)
  deriving DecidableEq, Repr

/-! ### Tokens and literals -/

/-- The tokens of a line, which one or more spaces separate (R86). `acc` holds the characters of the token
being read, last one first. -/
def tokensFrom (acc : List Char) : List Char → List (List Char)
  | [] => if acc.isEmpty then [] else [acc.reverse]
  | ch :: rest =>
    if ch = ' ' then
      if acc.isEmpty then tokensFrom [] rest else acc.reverse :: tokensFrom [] rest
    else tokensFrom (ch :: acc) rest

/-- The tokens of a line (R86). -/
def tokens (line : List Char) : List (List Char) := tokensFrom [] line

/-- A hexadecimal digit, in either case (R88). -/
def hexDigit (ch : Char) : Option Nat :=
  let n := ch.toNat
  if 48 ≤ n ∧ n ≤ 57 then some (n - 48)
  else if 97 ≤ n ∧ n ≤ 102 then some (n - 87)
  else if 65 ≤ n ∧ n ≤ 70 then some (n - 55)
  else none

/-- The number a list of hexadecimal digits writes, `acc` being what stands before it. -/
def hexFrom (acc : Nat) : List Char → Option Nat
  | [] => some acc
  | ch :: rest =>
    match hexDigit ch with
    | some d => hexFrom (acc * 16 + d) rest
    | none => none

/-- A number of one to `width` hexadecimal digits (R88). -/
def hexNumber (width : Nat) (t : List Char) : Except AsmError Nat :=
  if t.isEmpty || decide (width < t.length) then .error .invalidOperand
  else match hexFrom 0 t with
    | some n => .ok n
    | none => .error .invalidOperand

/-- A register or a nibble: one hexadecimal digit (R88). -/
def nibbleOperand (t : List Char) : Except AsmError Nibble := (hexNumber 1 t).map (BitVec.ofNat 4)

/-- A byte: one or two hexadecimal digits (R88). -/
def byteOperand (t : List Char) : Except AsmError Byte := (hexNumber 2 t).map (BitVec.ofNat 8)

/-- The byte of a character: its ASCII code (R90). A character outside ASCII is refused. -/
def charByte (ch : Char) : Except AsmError Byte :=
  if ch.toNat < 128 then .ok (BitVec.ofNat 8 ch.toNat) else .error .invalidOperand

/-- The bytes of a raw-byte literal (R90). `\x` and two hexadecimal digits give that byte, `\` and another
character that character's byte, any other character its own. -/
def literalBytes : List Char → Except AsmError (List Byte)
  | [] => .ok []
  | '\\' :: 'x' :: d1 :: d2 :: rest => do
    let n ← hexNumber 2 [d1, d2]
    let bs ← literalBytes rest
    return BitVec.ofNat 8 n :: bs
  | '\\' :: ch :: rest => do
    if ch = 'x' then .error .invalidOperand
    let v ← charByte ch
    let bs ← literalBytes rest
    return v :: bs
  | ['\\'] => .error .invalidOperand
  | ch :: rest => do
    let v ← charByte ch
    let bs ← literalBytes rest
    return v :: bs

/-! ### Lines (R86 to R92) -/

/-- An instruction of format RRR from its three operands. -/
def lineRRR (mk : RegIdx → RegIdx → RegIdx → Instr) : List (List Char) → Except AsmError Stmt
  | [ta, tb, tc] => do
    let a ← nibbleOperand ta
    let b ← nibbleOperand tb
    let c ← nibbleOperand tc
    return .instr (mk a b c)
  | _ => .error .invalidOperand

/-- `put`: a register, then a byte or half of a label (R88, R93). -/
def linePut : List (List Char) → Except AsmError Stmt
  | [ta, 'h' :: '\'' :: ch :: name] => (nibbleOperand ta).map fun a => .putHigh a (ch :: name)
  | [ta, 'l' :: '\'' :: ch :: name] => (nibbleOperand ta).map fun a => .putLow a (ch :: name)
  | [ta, ti] => do
    let a ← nibbleOperand ta
    let v ← byteOperand ti
    return .instr (.put a v)
  | _ => .error .invalidOperand

/-- `addi`: two registers and a nibble, the pattern of the signed addend (R88, R92). -/
def lineAddi : List (List Char) → Except AsmError Stmt
  | [ta, tb, ts] => do
    let a ← nibbleOperand ta
    let b ← nibbleOperand tb
    let v ← nibbleOperand ts
    return .instr (.addi a b v.toInt)
  | _ => .error .invalidOperand

/-- `cmp`: a register (R92). -/
def lineCmp : List (List Char) → Except AsmError Stmt
  | [ta] => (nibbleOperand ta).map fun a => .instr (.cmp a)
  | _ => .error .invalidOperand

/-- `br`: a mask, then a byte placed in imm8 unchanged or a label (R88, R94). -/
def lineBr : List (List Char) → Except AsmError Stmt
  | [tm, '\'' :: ch :: name] => (nibbleOperand tm).map fun m => .brLabel m (ch :: name)
  | [tm, td] => do
    let m ← nibbleOperand tm
    let d ← byteOperand td
    return .instr (.br m d.toInt)
  | _ => .error .invalidOperand

/-- `jmp`: two registers (R92). -/
def lineJmp : List (List Char) → Except AsmError Stmt
  | [tb, tc] => do
    let b ← nibbleOperand tb
    let c ← nibbleOperand tc
    return .instr (.jmp b c)
  | _ => .error .invalidOperand

/-- `trap`: an argument, then an index byte (R92). -/
def lineTrap : List (List Char) → Except AsmError Stmt
  | [ta, ti] => do
    let a ← nibbleOperand ta
    let n ← byteOperand ti
    return .instr (.trap a n)
  | _ => .error .invalidOperand

/-- `hlt`: no operand (R92). -/
def lineHlt : List (List Char) → Except AsmError Stmt
  | [] => .ok (.instr .hlt)
  | _ => .error .invalidOperand

/-- An instruction line: the mnemonic, in lower case, and its operands (R92). -/
def instrLine (mnemonic : List Char) (ops : List (List Char)) : Except AsmError Stmt :=
  if mnemonic = ['h', 'l', 't'] then lineHlt ops
  else if mnemonic = ['p', 'u', 't'] then linePut ops
  else if mnemonic = ['a', 'd', 'd'] then lineRRR .add ops
  else if mnemonic = ['s', 'u', 'b'] then lineRRR .sub ops
  else if mnemonic = ['a', 'n', 'd'] then lineRRR .and ops
  else if mnemonic = ['o', 'r'] then lineRRR .or ops
  else if mnemonic = ['x', 'o', 'r'] then lineRRR .xor ops
  else if mnemonic = ['s', 'h', 'l'] then lineRRR .shl ops
  else if mnemonic = ['s', 'h', 'r'] then lineRRR .shr ops
  else if mnemonic = ['a', 'd', 'd', 'i'] then lineAddi ops
  else if mnemonic = ['l', 'd'] then lineRRR .ld ops
  else if mnemonic = ['s', 't'] then lineRRR .st ops
  else if mnemonic = ['c', 'm', 'p'] then lineCmp ops
  else if mnemonic = ['b', 'r'] then lineBr ops
  else if mnemonic = ['j', 'm', 'p'] then lineJmp ops
  else if mnemonic = ['t', 'r', 'a', 'p'] then lineTrap ops
  else .error .unknownMnemonic

/-- One line after the origin directive: a raw-byte directive (R90), a padding directive (R91), a label
definition (R89), else an instruction (R92). A second origin directive is an error (R87). DESIGN CHOICE
(log 15): spaces before the first token are skipped, also before `.b`; a second origin directive is
`configError`; and a line that begins as a directive or a label but has not that directive's or the label's
shape (`.b` alone, `.offset` with no count or more than one operand, the label marker with no name after it,
a label with a second token) is read as an instruction line, so it is `unknownMnemonic`. -/
def parseLine (line : List Char) : Except AsmError Stmt :=
  match line.dropWhile (fun ch => decide (ch = ' ')) with
  | '.' :: 'b' :: ' ' :: literal => (literalBytes literal).map .bytes
  | _ =>
    match tokens line with
    | [['.', 'o', 'f', 'f', 's', 'e', 't'], count] =>
      (hexNumber 4 count).map fun n => .bytes (List.replicate n 0x00#8)
    | ['.', 'o', 'r', 'i', 'g', 'i', 'n'] :: _ => .error .configError
    | [('\'' :: ch :: name)] => .ok (.label (ch :: name))
    | mnemonic :: ops => instrLine mnemonic ops
    | [] => .error .unknownMnemonic

/-- The origin directive: two bytes, high byte first (R87). A first line that is no origin directive is
`configError` (R87). DESIGN CHOICE (log 15): so is an origin directive with a number of operands other than
two. -/
def parseOrigin (line : List Char) : Except AsmError Addr :=
  match tokens line with
  | [['.', 'o', 'r', 'i', 'g', 'i', 'n'], th, tl] => do
    let hi ← byteOperand th
    let lo ← byteOperand tl
    return pair hi lo
  | _ => .error .configError

/-- Every line read, in order; the first error ends it (R95). -/
def parseLines : List (List Char) → Except AsmError (List Stmt)
  | [] => .ok []
  | line :: rest => do
    let st ← parseLine line
    let sts ← parseLines rest
    return st :: sts

/-! ### The two passes (R89, R93 to R95) -/

/-- How many bytes a statement emits (R89 to R92). -/
def Stmt.size : Stmt → Nat
  | .label _ => 0
  | .bytes bs => bs.length
  | .instr _ | .putHigh _ _ | .putLow _ _ | .brLabel _ _ => 2

/-- The address a name is bound to. -/
def labelAddress (table : List (Label × Nat)) (name : Label) : Except AsmError Nat :=
  match table with
  | [] => .error .undefinedLabel
  | (n, addr) :: rest => if n = name then .ok addr else labelAddress rest name

/-- Pass 1: the label table, `cursor` being the address of the next byte (R89). A name bound twice is an
error. -/
def bindLabels (cursor : Nat) (table : List (Label × Nat)) :
    List Stmt → Except AsmError (List (Label × Nat))
  | [] => .ok table
  | st :: rest =>
    match st with
    | .label name =>
      if table.any (fun p => decide (p.1 = name)) then .error .labelRedefined
      else bindLabels cursor ((name, cursor) :: table) rest
    | .bytes _ | .instr _ | .putHigh _ _ | .putLow _ _ | .brLabel _ _ =>
      bindLabels (cursor + st.size) table rest

/-- The bytes of a `br` at `here` to `target`: their difference must fit 8 signed bits, and is the
displacement (R94). -/
def emitBranch (mask : Nibble) (here target : Nat) : Except AsmError (List Byte) :=
  if fitsSigned 8 ((target : Int) - here) then .ok (encodeBytes (.br mask ((target : Int) - here)))
  else .error .branchOutOfRange

/-- The bytes of one statement at `cursor` (R90 to R94). -/
def emitStmt (cursor : Nat) (table : List (Label × Nat)) (st : Stmt) : Except AsmError (List Byte) :=
  match st with
  | .label _ => .ok []
  | .bytes bs => .ok bs
  | .instr i => .ok (encodeBytes i)
  | .putHigh a name =>
    (labelAddress table name).map fun t => encodeBytes (.put a (hiByte (BitVec.ofNat 16 t)))
  | .putLow a name =>
    (labelAddress table name).map fun t => encodeBytes (.put a (loByte (BitVec.ofNat 16 t)))
  | .brLabel m name =>
    match labelAddress table name with
    | .ok target => emitBranch m cursor target
    | .error e => .error e

/-- Pass 2: the payload, every emitted byte in source order (R95). -/
def emitStmts (cursor : Nat) (table : List (Label × Nat)) : List Stmt → Except AsmError (List Byte)
  | [] => .ok []
  | st :: rest => do
    let bs ← emitStmt cursor table st
    let more ← emitStmts (cursor + st.size) table rest
    return bs ++ more

/-- A program text to its image: the origin's two bytes, then the payload; any error gives no image (R87,
R95). Blank lines are dropped (R86). DESIGN CHOICE (log 15): a line of spaces alone is a blank line. -/
def assemble (lines : List (List Char)) : Except AsmError (List Byte) :=
  match lines.filter (fun l => !(tokens l).isEmpty) with
  | [] => .error .configError
  | first :: rest => do
    let origin ← parseOrigin first
    let sts ← parseLines rest
    let table ← bindLabels origin.toNat [] sts
    let payload ← emitStmts origin.toNat table sts
    return hiByte origin :: loByte origin :: payload

end Sys2Proof.Machine
end

