-- ==== Sys2Proof/Safety.lean ====
section
/-! DEFINITION. The words claims are stated in: the invariant of the state, what a core that may be stepped
is, what one instruction may write, and what an assumption about handlers is. -/
namespace Sys2Proof.Machine

/-- The invariant of the model's data: memory in its canonical form, and a Trap Table an 8-bit index
can reach (R11). -/
def State.Inv (s : State) : Prop :=
  s.mem.wf = true ∧ s.trapTable.length ≤ Config.maxTraps

/-- The host may request a step: no fault is latched and the core is not halted (R33). -/
def State.MayStep (s : State) : Prop := s.fault = none ∧ s.halted = false

/-- The register an instruction names as its destination (R22): x[a] of the ALU instructions and `ld`, ST
for `cmp` and `hlt`. `br` and `jmp` write PC and no other; `st` writes none; a `trap` may write any. -/
def destination : Instr → Option RegIdx
  | .put a _ | .add a _ _ | .sub a _ _ | .and a _ _ | .or a _ _ | .xor a _ _ | .shl a _ _ | .shr a _ _
  | .addi a _ _ | .ld a _ _ => some a
  | .hlt | .cmp _ => some Reg.st
  | .st _ _ _ | .br _ _ | .jmp _ _ | .trap _ _ => none

/-- The instruction is a `trap`: the only one that can fault, hang or do more than one thing (R162). -/
def isTrap : Instr → Bool
  | .trap _ _ => true
  | .hlt | .put _ _ | .add _ _ _ | .sub _ _ _ | .and _ _ _ | .or _ _ _ | .xor _ _ _ | .shl _ _ _
  | .shr _ _ _ | .addi _ _ _ | .ld _ _ _ | .st _ _ _ | .cmp _ | .br _ _ | .jmp _ _ => false

/-- The instruction writes both halves of PC in its execute phase: `br` and `jmp` (R22). -/
def writesPc : Instr → Bool
  | .br _ _ | .jmp _ _ => true
  | .hlt | .put _ _ | .add _ _ _ | .sub _ _ _ | .and _ _ _ | .or _ _ _ | .xor _ _ _ | .shl _ _ _
  | .shr _ _ _ | .addi _ _ _ | .ld _ _ _ | .st _ _ _ | .cmp _ | .trap _ _ => false

/-- The address an instruction stores to, in the state its execute phase starts from: `st` alone stores
(R121), and a `trap`'s handler, of which nothing is said here. -/
def storeAddress (i : Instr) (s : State) : Option Addr :=
  match i with
  | .st _ b c => some (s.regPair b c)
  | .hlt | .put _ _ | .add _ _ _ | .sub _ _ _ | .and _ _ _ | .or _ _ _ | .xor _ _ _ | .shl _ _ _
  | .shr _ _ _ | .addi _ _ _ | .ld _ _ _ | .cmp _ | .br _ _ | .jmp _ _ | .trap _ _ => none

/-- Two states with the same latch, the same Trap Table and the same environment: what no instruction but
`trap` writes. -/
def SameOutside (s t : State) : Prop :=
  t.fault = s.fault ∧ t.trapTable = s.trapTable ∧ t.env = s.env

/-- Every byte of memory reads the same in both states. -/
def SameMemory (s t : State) : Prop := ∀ addr, t.readMem addr = s.readMem addr

/-- Every register reads the same in both states. -/
def SameRegisters (s t : State) : Prop := ∀ i, t.readReg i = s.readReg i

/-- Every register but `a` reads the same in both states. -/
def SameRegistersBut (a : RegIdx) (s t : State) : Prop := ∀ i, i ≠ a → t.readReg i = s.readReg i

/-- Every register but the two halves of PC reads the same in both states. -/
def SameRegistersButPc (s t : State) : Prop :=
  ∀ i, i ≠ Reg.pch → i ≠ Reg.pcl → t.readReg i = s.readReg i

/-- Nothing but register `a` may differ. -/
def WritesOnly (a : RegIdx) (s t : State) : Prop :=
  SameRegistersBut a s t ∧ SameMemory s t ∧ SameOutside s t

/-- Nothing but the two halves of PC may differ. -/
def WritesOnlyPc (s t : State) : Prop :=
  SameRegistersButPc s t ∧ SameMemory s t ∧ SameOutside s t

/-- The address that byte `k` of an image's payload is placed at: its two-byte big-endian origin plus `k`,
modulo 65536 (R196, R197). -/
def imageAddr (image : List Byte) (k : Nat) : Nat :=
  ((image.getD 0 0).toNat * 256 + (image.getD 1 0).toNat + k) % 65536

/-- Some byte of the image's payload is placed at `addr` (R197). -/
def Covers (image : List Byte) (addr : Addr) : Prop :=
  ∃ k, k + 2 < image.length ∧ imageAddr image k = addr.toNat

/-- What a register holds after a handler's accesses: what the last write of it wrote, or what it held
(R15, R165). -/
def regAfter (i : RegIdx) (v : Byte) : List HandlerOp → Byte
  | [] => v
  | .regWrite j u :: ops => regAfter i (if j = i then u else v) ops
  | .regRead _ :: ops | .memRead _ :: ops | .memWrite _ _ :: ops => regAfter i v ops

/-- What a byte of memory holds after a handler's accesses: what the last write of it wrote, or what it
held (R50, R165). -/
def byteAfter (addr : Addr) (v : Byte) : List HandlerOp → Byte
  | [] => v
  | .memWrite b u :: ops => byteAfter addr (if b = addr then u else v) ops
  | .regRead _ :: ops | .memRead _ :: ops | .regWrite _ _ :: ops => byteAfter addr v ops

/-- `t` is `s` after a handler that answered `ops` and left the world as `world` (R164, R166): registers
and memory as the last writes left them, the latch and the Trap Table untouched (R165). -/
def HandlerLeaves (s : State) (ops : List HandlerOp) (world : World) (t : State) : Prop :=
  (∀ i, t.readReg i = regAfter i (s.readReg i) ops) ∧
    (∀ addr, t.readMem addr = byteAfter addr (s.readMem addr) ops) ∧
    t.fault = s.fault ∧ t.trapTable = s.trapTable ∧ t.env.world = world

end Sys2Proof.Machine
end

