-- ==== Sys2Proof/Certificates/Slice0/Obligations.lean ====
section
/-! DEFINITION. The statements about the model. `s` in a statement about `exec` is the state the execute
phase starts from, with PC already advanced (R16); where `pc0` matters the statement starts from the state
at the fetch and writes `s.advance`. No statement rests on a register's or a byte's value after reset that
the model names (logs 1, 2), on the reset Trap Table (log 4), or on the value of the free
`Config.handlerAnswer` (log 5). -/

open Sys2Proof Sys2Proof.Machine

/-! ### Decoding (30_encoding.md) -/

/-- R75, R100 to R147: words written out bit by bit from the encodings, one or more of each format. -/
def Obligations.SpecWordsDecode : Prop :=
  decodeWord 0b0000000000000000#16 = .hlt ∧
  decodeWord 0b0001000001000001#16 = .put 0 0x41 ∧
  decodeWord 0b0010000000010010#16 = .add 0 1 2 ∧
  decodeWord 0b1001000000001111#16 = .addi 0 0 (-1) ∧
  decodeWord 0b1010010000100011#16 = .ld 4 2 3 ∧
  decodeWord 0b1011000000100011#16 = .st 0 2 3 ∧
  decodeWord 0b1100101100000000#16 = .cmp 0xB ∧
  decodeWord 0b1101011011111010#16 = .br 6 (-6) ∧
  decodeWord 0b1110000010001001#16 = .jmp 8 9 ∧
  decodeWord 0b1111010100000001#16 = .trap 5 1

/-- R72, R75, R92: no bit of an encoding is dropped. -/
def Obligations.DecodeInvertsEncode : Prop :=
  ∀ i : Instr, i.wellFormed = true → decodeWord (encode i) = i

/-- R76: every 16-bit word decodes to exactly one of the 16 instructions, the one whose opcode the top four
bits hold, and to an instruction that has an encoding. -/
def Obligations.EveryWordDecodes : Prop :=
  ∀ w : InstrWord, (decodeWord w).opcode = opField w ∧ (decodeWord w).wellFormed = true

/-- R77: the bits a format does not use are not examined; encoding what a word decodes to gives the word
with those bits 0 (R92). -/
def Obligations.IgnoredBitsAreNotExamined : Prop :=
  (∀ w : InstrWord, encode (decodeWord w) = w &&& usedBits (opField w)) ∧
  (∀ v w : InstrWord, opField v = opField w → v &&& usedBits (opField v) = w &&& usedBits (opField w) →
    decodeWord v = decodeWord w)

/-- R70, R71, R92: an instruction as bytes, high byte first, decodes to itself and leaves the bytes after
it. -/
def Obligations.BytesOfAnInstructionDecode : Prop :=
  ∀ (i : Instr) (rest : List Byte), i.wellFormed = true →
    decodeBytes (encodeBytes i ++ rest) = .ok (i, rest)

/-! ### The step (10_state.md) -/

/-- R31, R53, R71: the fetch reads the byte at PC as bits 15:8 and the next byte, modulo 65536, as bits 7:0;
the advance adds 2 to PC modulo 65536 and changes no other register. -/
def Obligations.FetchIsBigEndianAndAdvanceWraps : Prop :=
  ∀ s : State,
    s.fetchWord.toNat = (s.readMem s.pc).toNat * 256 +
      (s.readMem (BitVec.ofNat 16 ((s.pc.toNat + 1) % 65536))).toNat ∧
    s.advance.pc.toNat = (s.pc.toNat + 2) % 65536 ∧ WritesOnlyPc s s.advance

/-- R31: with no fault latched, the step is the execute phase of the instruction whose bytes lie at PC, from
the state whose PC is two further on. -/
def Obligations.StepRunsTheDecodedInstruction : Prop :=
  ∀ (s : State) (i : Instr), s.fault = none →
    decodeBytes [s.readMem s.pc, s.readMem (s.pc + 1)] = .ok (i, []) →
    step s = exec i (s.setPc (s.pc + 2))

/-- R38: while the latch is set the core does not execute. That the step then answers the fault `latched`
with the record is the model's form of it (log 7). -/
def Obligations.LatchedCoreDoesNotExecute : Prop :=
  ∀ (s : State) (r : FaultRecord), s.fault = some r → step s = .fault (.latched r)

/-- R162, R76: no step is refused, and a step of a core with no latched fault answers a next state, but for a
`trap` whose handler never returns (R166). Two forms here are the model's: a `trap` with an index at or beyond
`TRAP_COUNT`, a faulting step and no completed one in the spec (R161, C7), answers a next state with the latch
set (log 7), and a handler that never returns is the fault `handlerNeverReturns` (log 8). -/
def Obligations.NothingButAHandlerStopsAStep : Prop :=
  ∀ s : State, (∀ r, step s ≠ .refused r) ∧
    (s.fault = none →
      (∃ t, step s = .next t) ∨
      (∃ arg n entry, decodeWord s.fetchWord = .trap arg n ∧ s.trapTable[n.toNat]? = some entry ∧
        s.advance.invokeTrap entry n arg = none ∧ step s = .fault (.handlerNeverReturns n)))

/-! ### Register and ALU instructions (40_alu.md) -/

/-- R100: `put`. -/
def Obligations.PutLoadsImmediate : Prop :=
  ∀ (a : RegIdx) (imm : Byte) (s : State),
    decodeWord (0x1000#16 ||| (a.setWidth 16 <<< 8) ||| imm.setWidth 16) = .put a imm ∧
    ∃ t, exec (.put a imm) s = .next t ∧ t.readReg a = imm ∧ WritesOnly a s t

/-- R101: `add`. -/
def Obligations.AddWrapsModulo256 : Prop :=
  ∀ (a b c : RegIdx) (s : State),
    decodeWord (0x2000#16 ||| (a.setWidth 16 <<< 8) ||| (b.setWidth 16 <<< 4) ||| c.setWidth 16) =
      .add a b c ∧
    ∃ t, exec (.add a b c) s = .next t ∧
      (t.readReg a).toNat = ((s.readReg b).toNat + (s.readReg c).toNat) % 256 ∧ WritesOnly a s t

/-- R102: `sub`. -/
def Obligations.SubWrapsModulo256 : Prop :=
  ∀ (a b c : RegIdx) (s : State),
    decodeWord (0x3000#16 ||| (a.setWidth 16 <<< 8) ||| (b.setWidth 16 <<< 4) ||| c.setWidth 16) =
      .sub a b c ∧
    ∃ t, exec (.sub a b c) s = .next t ∧
      ((t.readReg a).toNat : Int) = ((s.readReg b).toNat - (s.readReg c).toNat : Int) % 256 ∧
      WritesOnly a s t

/-- R103: `and`, bit by bit. -/
def Obligations.AndIsBitwise : Prop :=
  ∀ (a b c : RegIdx) (s : State),
    decodeWord (0x4000#16 ||| (a.setWidth 16 <<< 8) ||| (b.setWidth 16 <<< 4) ||| c.setWidth 16) =
      .and a b c ∧
    ∃ t, exec (.and a b c) s = .next t ∧
      (∀ k, (t.readReg a).getLsbD k = ((s.readReg b).getLsbD k && (s.readReg c).getLsbD k)) ∧
      WritesOnly a s t

/-- R104: `or`, bit by bit. -/
def Obligations.OrIsBitwise : Prop :=
  ∀ (a b c : RegIdx) (s : State),
    decodeWord (0x5000#16 ||| (a.setWidth 16 <<< 8) ||| (b.setWidth 16 <<< 4) ||| c.setWidth 16) =
      .or a b c ∧
    ∃ t, exec (.or a b c) s = .next t ∧
      (∀ k, (t.readReg a).getLsbD k = ((s.readReg b).getLsbD k || (s.readReg c).getLsbD k)) ∧
      WritesOnly a s t

/-- R105: `xor`, bit by bit. -/
def Obligations.XorIsBitwise : Prop :=
  ∀ (a b c : RegIdx) (s : State),
    decodeWord (0x6000#16 ||| (a.setWidth 16 <<< 8) ||| (b.setWidth 16 <<< 4) ||| c.setWidth 16) =
      .xor a b c ∧
    ∃ t, exec (.xor a b c) s = .next t ∧
      (∀ k, (t.readReg a).getLsbD k = ((s.readReg b).getLsbD k ^^ (s.readReg c).getLsbD k)) ∧
      WritesOnly a s t

/-- R106, R111: `shl` by the low three bits of the amount register. -/
def Obligations.ShlMultipliesByPowerOfTwo : Prop :=
  ∀ (a b c : RegIdx) (s : State),
    decodeWord (0x7000#16 ||| (a.setWidth 16 <<< 8) ||| (b.setWidth 16 <<< 4) ||| c.setWidth 16) =
      .shl a b c ∧
    ∃ t, exec (.shl a b c) s = .next t ∧
      (t.readReg a).toNat = ((s.readReg b).toNat * 2 ^ ((s.readReg c).toNat % 8)) % 256 ∧
      WritesOnly a s t

/-- R107, R111: `shr` by the low three bits of the amount register, zeros entering at bit 7. -/
def Obligations.ShrDividesByPowerOfTwo : Prop :=
  ∀ (a b c : RegIdx) (s : State),
    decodeWord (0x8000#16 ||| (a.setWidth 16 <<< 8) ||| (b.setWidth 16 <<< 4) ||| c.setWidth 16) =
      .shr a b c ∧
    ∃ t, exec (.shr a b c) s = .next t ∧
      (t.readReg a).toNat = (s.readReg b).toNat / 2 ^ ((s.readReg c).toNat % 8) ∧ WritesOnly a s t

/-- R108: `addi`, from the word with the field `c` to the sum with `sext_8(c)`, which is `c` up to 7 and
`c + 0xF0` from 8 on. -/
def Obligations.AddiAddsSignExtendedField : Prop :=
  ∀ (a b c : Nibble) (s : State),
    ∃ imm, decodeWord (0x9000#16 ||| (a.setWidth 16 <<< 8) ||| (b.setWidth 16 <<< 4) ||| c.setWidth 16) =
      .addi a b imm ∧
    ∃ t, exec (.addi a b imm) s = .next t ∧
      (t.readReg a).toNat =
        ((s.readReg b).toNat + (if c.toNat ≤ 7 then c.toNat else c.toNat + 0xF0)) % 256 ∧
      WritesOnly a s t

/-! ### Memory instructions (41_memory_ops.md) -/

/-- R120: `ld`. -/
def Obligations.LdReadsRegisterPairAddress : Prop :=
  ∀ (a b c : RegIdx) (s : State),
    decodeWord (0xA000#16 ||| (a.setWidth 16 <<< 8) ||| (b.setWidth 16 <<< 4) ||| c.setWidth 16) =
      .ld a b c ∧
    ∃ t, exec (.ld a b c) s = .next t ∧
      t.readReg a = s.readMem (BitVec.ofNat 16 ((s.readReg b).toNat * 256 + (s.readReg c).toNat)) ∧
      WritesOnly a s t

/-- R121, R50: `st` stores x[a] at the register pair's address, `State.regPair` as the meaning uses it, and
changes no other byte and no register. -/
def Obligations.StWritesOneByte : Prop :=
  ∀ (a b c : RegIdx) (s : State),
    decodeWord (0xB000#16 ||| (a.setWidth 16 <<< 8) ||| (b.setWidth 16 <<< 4) ||| c.setWidth 16) =
      .st a b c ∧
    (s.regPair b c).toNat = (s.readReg b).toNat * 256 + (s.readReg c).toNat ∧
    ∃ t, exec (.st a b c) s = .next t ∧ t.readMem (s.regPair b c) = s.readReg a ∧
      (∀ addr, addr ≠ s.regPair b c → t.readMem addr = s.readMem addr) ∧
      SameRegisters s t ∧ SameOutside s t

/-- R50, R62, which the spec marks derived: a byte stored by a step is the byte the next fetch reads,
as the first or the second byte of the word. -/
def Obligations.NextFetchSeesStore : Prop :=
  ∀ (s t : State) (a b c : RegIdx), decodeWord s.fetchWord = .st a b c → step s = .next t →
    (s.advance.regPair b c = t.pc → firstByte t.fetchWord = s.advance.readReg a) ∧
    (s.advance.regPair b c = t.pc + 1 → secondByte t.fetchWord = s.advance.readReg a)

/-! ### Branch, jump and compare (42_branch_compare.md) -/

/-- R130: `br` of the instruction fetched at `s.pc`: taken if mask bit 3 is 1 or a selected condition bit is,
to `pc0` plus the signed displacement modulo 65536; otherwise nothing but the advance. -/
def Obligations.BrTestsMaskAndAddsToPc0 : Prop :=
  ∀ (m : Nibble) (dd : Byte) (s : State),
    decodeWord (0xD000#16 ||| (m.setWidth 16 <<< 8) ||| dd.setWidth 16) = .br m dd.toInt ∧
    ∃ t, exec (.br m dd.toInt) s.advance = .next t ∧ WritesOnlyPc s.advance t ∧
      (if m.getLsbD 3 ∨ (m.getLsbD 0 ∧ (s.readReg Reg.st).getLsbD 0) ∨ (m.getLsbD 1 ∧ (s.readReg Reg.st).getLsbD 1) ∨
          (m.getLsbD 2 ∧ (s.readReg Reg.st).getLsbD 2)
        then (t.pc.toNat : Int) = (s.pc.toNat + dd.toInt) % 65536
        else t.pc = s.pc + 2)

/-- R130: the table of what each mask means after `cmp`, by the signed value compared, for every register
the compare can name. -/
def Obligations.MaskMeaningAfterCompare : Prop :=
  ∀ (a : RegIdx) (s t : State), exec (.cmp a) s = .next t →
    branchTaken 0 t.st = false ∧
    (branchTaken 1 t.st = true ↔ (s.readReg a).toInt = 0) ∧
    (branchTaken 2 t.st = true ↔ (s.readReg a).toInt < 0) ∧
    (branchTaken 3 t.st = true ↔ (s.readReg a).toInt ≤ 0) ∧
    (branchTaken 4 t.st = true ↔ (s.readReg a).toInt > 0) ∧
    (branchTaken 5 t.st = true ↔ (s.readReg a).toInt ≥ 0) ∧
    (branchTaken 6 t.st = true ↔ (s.readReg a).toInt ≠ 0) ∧
    branchTaken 7 t.st = true ∧
    (∀ m : Nibble, m.getLsbD 3 = true → branchTaken m t.st = true)

/-- R134: `jmp`. -/
def Obligations.JmpGoesToRegisterPair : Prop :=
  ∀ (b c : RegIdx) (s : State),
    (∀ x : Nibble, decodeWord (0xE000#16 ||| (x.setWidth 16 <<< 8) ||| (b.setWidth 16 <<< 4) |||
      c.setWidth 16) = .jmp b c) ∧
    ∃ t, exec (.jmp b c) s = .next t ∧
      t.pc.toNat = (s.readReg b).toNat * 256 + (s.readReg c).toNat ∧ WritesOnlyPc s t

/-- R138: `cmp`, bit by bit: Z, N, P from the value read before ST is written, bits 7:3 kept, no other
register written. -/
def Obligations.CmpSetsConditionBits : Prop :=
  ∀ (a : RegIdx) (s : State),
    (∀ x : Byte, decodeWord (0xC000#16 ||| (a.setWidth 16 <<< 8) ||| x.setWidth 16) = .cmp a) ∧
    ∃ t, exec (.cmp a) s = .next t ∧
      ((t.readReg Reg.st).getLsbD 0 = true ↔ s.readReg a = 0x00#8) ∧
      (t.readReg Reg.st).getLsbD 1 = (s.readReg a).getLsbD 7 ∧
      ((t.readReg Reg.st).getLsbD 2 = true ↔ s.readReg a ≠ 0x00#8 ∧ (s.readReg a).getLsbD 7 = false) ∧
      (∀ k, 3 ≤ k → (t.readReg Reg.st).getLsbD k = (s.readReg Reg.st).getLsbD k) ∧
      WritesOnly Reg.st s t

/-- R26: after any `cmp` exactly one of Z, N, P is 1. -/
def Obligations.ExactlyOneConditionBitAfterCmp : Prop :=
  ∀ (a : RegIdx) (s t : State), exec (.cmp a) s = .next t →
    t.readReg Reg.st &&& 0x07#8 = 0x01#8 ∨ t.readReg Reg.st &&& 0x07#8 = 0x02#8 ∨ t.readReg Reg.st &&& 0x07#8 = 0x04#8

/-- R26: no instruction but `cmp`, one whose destination is register 11, and `trap`'s handler changes a
condition bit, and `hlt` changes bit 7 alone. -/
def Obligations.OnlyCompareComputesConditionBits : Prop :=
  ∀ (i : Instr) (s t : State), exec i s = .next t → isTrap i = false → (∀ a, i ≠ .cmp a) →
    (i = .hlt ∨ destination i ≠ some Reg.st) →
    t.readReg Reg.st &&& 0x7F#8 = s.readReg Reg.st &&& 0x7F#8 ∧ (i ≠ .hlt → t.readReg Reg.st = s.readReg Reg.st)

/-! ### System instructions (43_system.md, 60_exceptions.md) -/

/-- R145: `hlt` sets H and performs no further effect. -/
def Obligations.HltSetsHaltedFlagOnly : Prop :=
  ∀ s : State,
    (∀ low : BitVec 12, decodeWord (0x0#4 ++ low) = .hlt) ∧
    ∃ t, exec .hlt s = .next t ∧ (t.readReg Reg.st).getLsbD 7 = true ∧ t.halted = true ∧
      (∀ k, k < 7 → (t.readReg Reg.st).getLsbD k = (s.readReg Reg.st).getLsbD k) ∧ WritesOnly Reg.st s t

/-- R147, R160: an index at or beyond `TRAP_COUNT` latches cause code 1, the word and the address of the
`trap`, and invokes no handler. Nothing is said of registers and memory, which are no architectural result
after a fault (R161, log 7). -/
def Obligations.TrapIndexOutOfBoundsLatches : Prop :=
  ∀ (arg : Nibble) (n : Byte) (s : State), s.trapTable.length ≤ n.toNat →
    ∃ t, exec (.trap arg n) s.advance = .next t ∧
      t.fault = some
        ⟨.trapIndexOutOfBounds, 0xF000#16 ||| (arg.setWidth 16 <<< 8) ||| n.setWidth 16, s.pc⟩ ∧
      t.faultCode = 1 ∧ t.env = s.env ∧ t.trapTable = s.trapTable

/-- R147, R164, R166: an index inside the Trap Table whose entry is a handler that answers as the
environment says: the step completes with what the handler's accesses left. That the answer is the next one
of the list the environment holds, and that it is then used up, is the model's form of the oracle (log 5). -/
def Obligations.TrapRunsHandler : Prop :=
  ∀ (arg : Nibble) (n : Byte) (s : State) (ops : List HandlerOp) (world : World) (rest : List HandlerAnswer),
    decodeWord (0xF000#16 ||| (arg.setWidth 16 <<< 8) ||| n.setWidth 16) = .trap arg n ∧
    (s.trapTable[n.toNat]? = some .oracle → s.env.answers = .returns ops world :: rest →
      ∃ t, exec (.trap arg n) s = .next t ∧ HandlerLeaves s ops world t ∧ t.env.answers = rest)

/-- R166: whatever an oracle handler answers, the step completes with what its accesses left or never
completes. That the answer is scripted in the environment or else free is the model's form of the oracle
(log 5); a handler that never returns is the model's named stuck outcome (log 8). -/
def Obligations.TrapFollowsTheOracle : Prop :=
  ∀ (arg : Nibble) (n : Byte) (s : State), s.trapTable[n.toNat]? = some .oracle →
    match s.oracleAnswer n arg with
    | .returns ops world => ∃ t, exec (.trap arg n) s = .next t ∧ HandlerLeaves s ops world t
    | .blocks => exec (.trap arg n) s = .fault (.handlerNeverReturns n)

/-- R166: with no assumption on the handler, every register and every memory byte is arbitrary after a
`trap`: each choice of registers and memory is what some answer leaves. The list of answers is the model's
form of the oracle (log 5). -/
def Obligations.UnassumedHandlerMayLeaveAnything : Prop :=
  ∀ (arg : Nibble) (n : Byte) (s : State) (regs : RegIdx → Byte) (mem : Addr → Byte),
    s.trapTable[n.toNat]? = some .oracle →
    ∃ (answers : List HandlerAnswer) (t : State),
      exec (.trap arg n) { s with env := { s.env with answers := answers } } = .next t ∧
      (∀ i, t.readReg i = regs i) ∧ (∀ addr, t.readMem addr = mem addr)

/-- R167: `CONOUT(arg)` appends x[arg] to the console output and changes no register and no memory. -/
def Obligations.ConoutAppendsRegister : Prop :=
  ∀ (arg : Nibble) (n : Byte) (s : State), s.trapTable[n.toNat]? = some .conout →
    ∃ t, exec (.trap arg n) s = .next t ∧
      t.env.world.consoleOut = s.env.world.consoleOut ++ [s.readReg arg] ∧
      t.env.world.consoleIn = s.env.world.consoleIn ∧ t.env.answers = s.env.answers ∧
      SameRegisters s t ∧ SameMemory s t ∧ t.fault = s.fault ∧ t.trapTable = s.trapTable

/-- R167: `CONIN(arg)` removes the next input byte and writes it to x[arg], changing nothing else. With no
byte to come it waits for ever, which the model answers as stuck (log 6). -/
def Obligations.ConinDeliversNextByte : Prop :=
  ∀ (arg : Nibble) (n : Byte) (s : State), s.trapTable[n.toNat]? = some .conin →
    (∀ v rest, s.env.world.consoleIn = v :: rest →
      ∃ t, exec (.trap arg n) s = .next t ∧ t.readReg arg = v ∧ t.env.world.consoleIn = rest ∧
        t.env.world.consoleOut = s.env.world.consoleOut ∧ t.env.answers = s.env.answers ∧
        SameRegistersBut arg s t ∧ SameMemory s t ∧ t.fault = s.fault ∧ t.trapTable = s.trapTable) ∧
    (s.env.world.consoleIn = [] → exec (.trap arg n) s = .fault (.handlerNeverReturns n))

/-- R38, R160: a step that leaves the latch set was a `trap` with an index at or beyond `TRAP_COUNT`, and the
record holds its word and its address. That such a step answers a next state is the model's form (log 7). -/
def Obligations.OnlyBadTrapIndexSetsLatch : Prop :=
  ∀ (s t : State) (r : FaultRecord), step s = .next t → t.fault = some r →
    ∃ arg n, decodeWord s.fetchWord = .trap arg n ∧ s.trapTable.length ≤ n.toNat ∧
      r = ⟨.trapIndexOutOfBounds, s.fetchWord, s.pc⟩

/-! ### What an instruction leaves alone -/

/-- R22: no register but the destination is written by the execute phase of an instruction other than `trap`,
and the halves of PC by `br` and `jmp`. -/
def Obligations.OnlyTheDestinationIsWritten : Prop :=
  ∀ (i : Instr) (s t : State) (r : RegIdx), exec i s = .next t → isTrap i = false →
    destination i ≠ some r → (writesPc i = true → r ≠ Reg.pch ∧ r ≠ Reg.pcl) → t.readReg r = s.readReg r

/-- R50, R121: no byte of memory is changed by an instruction other than `trap`, but the one byte `st` stores,
whose address `storeAddress` computes as the meaning does. -/
def Obligations.OnlyTheStoredByteChanges : Prop :=
  ∀ (i : Instr) (s t : State) (addr : Addr), exec i s = .next t → isTrap i = false →
    storeAddress i s ≠ some addr → t.readMem addr = s.readMem addr

/-- R8, R39, R165, R190: no step writes the Trap Table, and no instruction but `trap` the latch or the
environment. -/
def Obligations.TrapTableIsFixed : Prop :=
  ∀ s t : State, step s = .next t → t.trapTable = s.trapTable ∧
    (isTrap (decodeWord s.fetchWord) = false → t.fault = s.fault ∧ t.env = s.env)

/-- R168, R39: two cores with the same registers and memory, whatever the worlds and Trap Tables around them,
do the same on every instruction that is no `trap`. -/
def Obligations.WorldReachesCoreOnlyThroughTrap : Prop :=
  ∀ s u t : State, u.regs = s.regs → u.mem = s.mem → s.fault = none → u.fault = none →
    isTrap (decodeWord s.fetchWord) = false → step s = .next t →
    ∃ v, step u = .next v ∧ v.regs = t.regs ∧ v.mem = t.mem

/-- R31, R34, which the spec marks derived: the state every execute phase reads its sources from holds the
two bytes of the advanced program counter in x[14] and x[15], and every other register as it was; so a source
operand naming one of the two reads that byte. `addi`, `add`, `cmp`, `ld`, `st` and `jmp` show it for each
place a source can stand in. -/
def Obligations.SourceReadsAdvancedPc : Prop :=
  ∀ s : State,
    (s.fault = none → step s = exec (decodeWord s.fetchWord) s.advance) ∧
    (s.advance.readReg Reg.pcl).toNat = (s.pc.toNat + 2) % 256 ∧
    (s.advance.readReg Reg.pch).toNat = ((s.pc.toNat + 2) % 65536) / 256 ∧
    (∀ i : RegIdx, i ≠ Reg.pch → i ≠ Reg.pcl → s.advance.readReg i = s.readReg i) ∧
    (∀ a : RegIdx, ∃ t, exec (.addi a Reg.pcl 0) s.advance = .next t ∧
      (t.readReg a).toNat = (s.pc.toNat + 2) % 256) ∧
    (∀ a : RegIdx, ∃ t, exec (.addi a Reg.pch 0) s.advance = .next t ∧
      (t.readReg a).toNat = ((s.pc.toNat + 2) % 65536) / 256) ∧
    (∀ a : RegIdx, ∃ t, exec (.add a Reg.pch Reg.pcl) s.advance = .next t ∧
      (t.readReg a).toNat = (((s.pc.toNat + 2) % 65536) / 256 + (s.pc.toNat + 2) % 256) % 256) ∧
    (∃ t, exec (.cmp Reg.pcl) s.advance = .next t ∧
      ((t.readReg Reg.st).getLsbD 0 = true ↔ (s.pc.toNat + 2) % 256 = 0)) ∧
    (∀ a : RegIdx, ∃ t, exec (.ld a Reg.pch Reg.pcl) s.advance = .next t ∧
      t.readReg a = s.readMem (s.pc + 2)) ∧
    (∀ b c : RegIdx, ∃ t, exec (.st Reg.pcl b c) s.advance = .next t ∧
      (t.readMem (s.advance.regPair b c)).toNat = (s.pc.toNat + 2) % 256) ∧
    (∃ t, exec (.jmp Reg.pch Reg.pcl) s.advance = .next t ∧ t.pc = s.pc + 2)

/-- R23, R35, which the spec marks derived: an instruction whose destination is x[14] or x[15], whichever it
is, completes, and PC is then the byte it wrote there beside the other byte of the advanced PC, with no carry;
`put` shows it with the byte written out. -/
def Obligations.WritingAHalfOfPcJumps : Prop :=
  (∀ (i : Instr) (s : State), destination i = some Reg.pcl →
    ∃ t, exec i s.advance = .next t ∧
      t.pc.toNat = ((s.pc.toNat + 2) % 65536) / 256 * 256 + (t.readReg Reg.pcl).toNat) ∧
  (∀ (i : Instr) (s : State), destination i = some Reg.pch →
    ∃ t, exec i s.advance = .next t ∧
      t.pc.toNat = (t.readReg Reg.pch).toNat * 256 + (s.pc.toNat + 2) % 256) ∧
  ∀ (v : Byte) (s : State),
    (∃ t, exec (.put Reg.pcl v) s.advance = .next t ∧
      t.pc.toNat = ((s.pc.toNat + 2) % 65536) / 256 * 256 + v.toNat) ∧
    (∃ t, exec (.put Reg.pch v) s.advance = .next t ∧
      t.pc.toNat = v.toNat * 256 + (s.pc.toNat + 2) % 256)

/-- R25, R27, R29, which the spec marks derived: ST written as a register sets or clears H, and reads back
whole. -/
def Obligations.StIsAnOrdinaryRegister : Prop :=
  ∀ (v : Byte) (s : State), ∃ t, exec (.put Reg.st v) s = .next t ∧ t.halted = v.getLsbD 7 ∧
    t.readReg Reg.st = v

/-! ### Invariants, reset and load -/

/-- The model's data stays sound: every step keeps the canonical memory and a Trap Table of at most 256
entries (R11, R36, R165). -/
def Obligations.StepKeepsInvariant : Prop :=
  ∀ s t : State, s.Inv → step s = .next t → t.Inv

/-- The invariant holds after reset. -/
def Obligations.ResetMeetsInvariant : Prop := State.reset.Inv

/-- R190 to R195: `reset()` with any parameters. -/
def Obligations.ResetGivesEveryState : Prop :=
  ∀ p : ResetParams,
    (State.resetWith p).pc = p.resetPc ∧ (State.resetWith p).readReg Reg.st = 0x00#8 ∧
    (∀ i : RegIdx, i ≠ Reg.st → i ≠ Reg.pch → i ≠ Reg.pcl →
      (State.resetWith p).readReg i = p.regInit[i.toNat]'i.isLt) ∧
    (∀ addr, (State.resetWith p).readMem addr = p.memInit.read addr) ∧
    (State.resetWith p).fault = none ∧ (State.resetWith p).trapTable = p.trapTable

/-- R191, R192, R195: after reset PC is the default `RESET_PC` = 0x0000, ST is 0x00, the latch is none and the
core may be stepped. -/
def Obligations.ResetStateAsTheSpecStates : Prop :=
  State.reset.pc = 0x0000#16 ∧ State.reset.readReg Reg.st = 0x00#8 ∧ State.reset.halted = false ∧
    State.reset.fault = none ∧ State.reset.faultCode = 0 ∧ State.reset.MayStep

/-- R196, R197, R50: `load` places the payload from the origin on, addresses modulo 65536; where a payload
longer than the address space comes round, the later byte wins; no other byte and no register changes. -/
def Obligations.LoadPlacesPayload : Prop :=
  ∀ (s : State) (hi lo : Byte) (payload : List Byte),
    ∃ t, s.load (hi :: lo :: payload) = .next t ∧
      (∀ k (h : k < payload.length), payload.length ≤ k + 65536 →
        t.readMem (BitVec.ofNat 16 ((hi.toNat * 256 + lo.toNat + k) % 65536)) = payload[k]) ∧
      (∀ addr : Addr, (∀ k, k < payload.length → addr.toNat ≠ (hi.toNat * 256 + lo.toNat + k) % 65536) →
        t.readMem addr = s.readMem addr) ∧
      SameRegisters s t ∧ SameOutside s t

/-- R196: a byte string shorter than 2 bytes is not an image and `load` refuses it. -/
def Obligations.ShortImageIsRefused : Prop :=
  ∀ (s : State) (image : List Byte), image.length < 2 → s.load image = .refused .notAnImage

/-- R198: of two images that cover the same byte the later one wins, and what only the earlier one covers
stays; within one payload longer than the address space the last byte for an address wins (R197). -/
def Obligations.LaterImageWins : Prop :=
  ∀ (s : State) (hi lo hi' lo' : Byte) (first second : List Byte),
    ∃ t, s.loadAll [hi :: lo :: first, hi' :: lo' :: second] = .next t ∧
      (∀ k (h : k < second.length), second.length ≤ k + 65536 →
        t.readMem (BitVec.ofNat 16 ((hi'.toNat * 256 + lo'.toNat + k) % 65536)) = second[k]) ∧
      (∀ k (h : k < first.length), first.length ≤ k + 65536 →
        (∀ j, j < second.length →
          (hi'.toNat * 256 + lo'.toNat + j) % 65536 ≠ (hi.toNat * 256 + lo.toNat + k) % 65536) →
        t.readMem (BitVec.ofNat 16 ((hi.toNat * 256 + lo.toNat + k) % 65536)) = first[k])

/-- R199, R191, R194, R198: images of two bytes or more can all be loaded, and the launch state then has its
registers from `reset()`, whatever was loaded: the origin of an image does not set PC. A byte of memory that
no image covers is the one `reset()` left, and a byte that some image covers is the last one loaded there: of
the last image that covers it, the last byte placed there (R197). The invariant holds if the initial memory
and the Trap Table meet it. That a sequence with a shorter byte string has no launch state is the model's
choice (log 11). -/
def Obligations.LaunchStateIsResetPlusLoads : Prop :=
  ∀ (p : ResetParams) (images : List (List Byte)),
    ((∀ image ∈ images, 2 ≤ image.length) → ∃ t, State.launch p images = .next t) ∧
    ∀ t : State, State.launch p images = .next t →
      (∀ image ∈ images, 2 ≤ image.length) ∧
      t.pc = p.resetPc ∧ SameRegisters (State.resetWith p) t ∧ SameOutside (State.resetWith p) t ∧
      (∀ addr : Addr, (∀ image ∈ images, ¬ Covers image addr) → t.readMem addr = p.memInit.read addr) ∧
      (∀ (before after : List (List Byte)) (image : List Byte) (addr : Addr) (k : Nat)
        (h : k + 2 < image.length),
        images = before ++ image :: after → imageAddr image k = addr.toNat →
        image.length ≤ k + 2 + 65536 → (∀ later ∈ after, ¬ Covers later addr) →
        t.readMem addr = image[k + 2]) ∧
      ((State.resetWith p).Inv → t.Inv)

/-! ### The run -/

/-- R33: the host looks at the latch first, then at the halted flag, then steps. -/
def Obligations.RunFollowsTheHostLoop : Prop :=
  ∀ (k : Nat) (s : State),
    (∀ r, s.fault = some r → hostRun k s = .faulted r) ∧
    (s.fault = none → s.halted = true → hostRun k s = .halted s) ∧
    (∀ t, s.MayStep → step s = .next t → hostRun (k + 1) s = hostRun k t)

/-- R33: once a run has ended it stays as it is: more steps allowed change nothing. -/
def Obligations.EndedRunStaysAsItIs : Prop :=
  ∀ (k m : Nat) (s : State),
    (∀ t, hostRun k s = .halted t → hostRun (k + m) s = .halted t ∧ t.halted = true ∧ t.fault = none) ∧
    (∀ r, hostRun k s = .faulted r → hostRun (k + m) s = .faulted r)

/-- R160, R161, over whole runs: a run that starts with no fault latched and ends faulted ended at a `trap`
whose index is at or beyond the `TRAP_COUNT` the run started with, and the record holds that word. -/
def Obligations.FaultedRunMetABadTrapIndex : Prop :=
  ∀ (k : Nat) (s : State) (r : FaultRecord), s.fault = none → hostRun k s = .faulted r →
    r.cause = .trapIndexOutOfBounds ∧
      ∃ arg n, decodeWord r.word = .trap arg n ∧ s.trapTable.length ≤ n.toNat

/-- Over whole runs: where a run of any length has come to keeps the canonical memory and the Trap Table it
started with (R11, R36, R165). -/
def Obligations.RunKeepsInvariant : Prop :=
  ∀ (k : Nat) (s t : State), s.Inv → (hostRun k s = .halted t ∨ hostRun k s = .running t) →
    t.Inv ∧ t.trapTable = s.trapTable

/-! ### Assembly -/

/-- R93: the two `put`s assembled for the halves of a label put bits 15:8 and 7:0 of its address. A label's
value here is the assembler's cursor, which has no upper bound, and its address is that number modulo 65536:
the model's choice (log 15), which R93 does not speak of. -/
def Obligations.LabelHalvesMakeTheAddress : Prop :=
  ∀ (cursor target : Nat) (a b : RegIdx) (name : Label) (table : List (Label × Nat)),
    labelAddress table name = .ok target →
    ∃ bs bs' hi lo, emitStmt cursor table (.putHigh a name) = .ok bs ∧
      emitStmt cursor table (.putLow b name) = .ok bs' ∧
      decodeBytes bs = .ok (.put a hi, []) ∧ decodeBytes bs' = .ok (.put b lo, []) ∧
      hi.toNat * 256 + lo.toNat = target % 65536

/-- R94, R131: a `br` with mask `m` assembled at `here` for a label bound to `target` within reach decodes to
a `br` of that mask which, executed at `here`, goes to `target` whenever it is taken, by mask bit 3 or by a
selected condition bit, and else goes on behind itself; out of reach it is refused. That `here` and `target`
are cursors without an upper bound, and their addresses these numbers modulo 65536, is the model's choice
(log 15). -/
def Obligations.AssembledBranchReachesItsLabel : Prop :=
  ∀ (here target : Nat) (m : Nibble) (name : Label) (table : List (Label × Nat)),
    labelAddress table name = .ok target →
    (-128 ≤ (target : Int) - here → (target : Int) - here ≤ 127 →
      ∃ bs d, emitStmt here table (.brLabel m name) = .ok bs ∧ decodeBytes bs = .ok (.br m d, []) ∧
        ∀ s : State, s.pc = BitVec.ofNat 16 here →
          ∃ t, exec (.br m d) s.advance = .next t ∧
            (branchTaken m s.st = true → t.pc = BitVec.ofNat 16 target) ∧
            (branchTaken m s.st = false → t.pc = BitVec.ofNat 16 (here + 2))) ∧
    ((target : Int) - here < -128 ∨ 127 < (target : Int) - here →
      emitStmt here table (.brLabel m name) = .error .branchOutOfRange)
end

