-- ==== Sys2Proof/Laws/Encoding.lean ====
section
/-! SUPPORT. The fields of a word that was put together from fields (R72), and the word put together from
its bytes (R53). -/
namespace Sys2Proof

theorem toNat_append_add {m n : Nat} (x : BitVec m) (y : BitVec n) :
    (x ++ y).toNat = x.toNat * 2 ^ n + y.toNat := by
  rw [BitVec.toNat_append, ← Nat.shiftLeft_add_eq_or_of_lt y.isLt, Nat.shiftLeft_eq]

theorem toNat_wordRRR (op a b c : Nibble) :
    (wordRRR op a b c).toNat = op.toNat * 4096 + a.toNat * 256 + b.toNat * 16 + c.toNat := by
  simp only [wordRRR, toNat_append_add]
  omega

theorem toNat_wordRI (op a : Nibble) (imm : Byte) :
    (wordRI op a imm).toNat = op.toNat * 4096 + a.toNat * 256 + imm.toNat := by
  simp only [wordRI, toNat_append_add]
  omega

@[simp] theorem opField_wordRRR (op a b c : Nibble) : opField (wordRRR op a b c) = op := by
  apply BitVec.eq_of_toNat_eq
  rw [opField, BitVec.extractLsb'_toNat, toNat_wordRRR, Nat.shiftRight_eq_div_pow]
  have := op.isLt; have := a.isLt; have := b.isLt; have := c.isLt
  omega

@[simp] theorem aField_wordRRR (op a b c : Nibble) : aField (wordRRR op a b c) = a := by
  apply BitVec.eq_of_toNat_eq
  rw [aField, BitVec.extractLsb'_toNat, toNat_wordRRR, Nat.shiftRight_eq_div_pow]
  have := op.isLt; have := a.isLt; have := b.isLt; have := c.isLt
  omega

@[simp] theorem bField_wordRRR (op a b c : Nibble) : bField (wordRRR op a b c) = b := by
  apply BitVec.eq_of_toNat_eq
  rw [bField, BitVec.extractLsb'_toNat, toNat_wordRRR, Nat.shiftRight_eq_div_pow]
  have := op.isLt; have := a.isLt; have := b.isLt; have := c.isLt
  omega

@[simp] theorem cField_wordRRR (op a b c : Nibble) : cField (wordRRR op a b c) = c := by
  apply BitVec.eq_of_toNat_eq
  rw [cField, BitVec.extractLsb'_toNat, toNat_wordRRR, Nat.shiftRight_eq_div_pow]
  have := op.isLt; have := a.isLt; have := b.isLt; have := c.isLt
  omega

@[simp] theorem opField_wordRI (op a : Nibble) (imm : Byte) : opField (wordRI op a imm) = op := by
  apply BitVec.eq_of_toNat_eq
  rw [opField, BitVec.extractLsb'_toNat, toNat_wordRI, Nat.shiftRight_eq_div_pow]
  have := op.isLt; have := a.isLt; have := imm.isLt
  omega

@[simp] theorem aField_wordRI (op a : Nibble) (imm : Byte) : aField (wordRI op a imm) = a := by
  apply BitVec.eq_of_toNat_eq
  rw [aField, BitVec.extractLsb'_toNat, toNat_wordRI, Nat.shiftRight_eq_div_pow]
  have := op.isLt; have := a.isLt; have := imm.isLt
  omega

@[simp] theorem immField_wordRI (op a : Nibble) (imm : Byte) : immField (wordRI op a imm) = imm := by
  apply BitVec.eq_of_toNat_eq
  rw [immField, BitVec.extractLsb'_toNat, toNat_wordRI, Nat.shiftRight_eq_div_pow]
  have := op.isLt; have := a.isLt; have := imm.isLt
  omega

@[simp] theorem wordOfBytes_firstByte_secondByte (w : InstrWord) :
    wordOfBytes (firstByte w) (secondByte w) = w := by
  apply BitVec.eq_of_toNat_eq
  rw [wordOfBytes, toNat_append_add, firstByte, secondByte, BitVec.extractLsb'_toNat,
    BitVec.extractLsb'_toNat, Nat.shiftRight_eq_div_pow]
  have := w.isLt
  omega

/-! ### Words as the instruction rules write them: `op << 12 | a << 8 | ...` (R100 to R147) -/

theorem or_of_fields (op a b c : Nibble) :
    (op.setWidth 16 <<< 12) ||| (a.setWidth 16 <<< 8) ||| (b.setWidth 16 <<< 4) ||| c.setWidth 16 =
      wordRRR op a b c := by
  apply BitVec.eq_of_getLsbD_eq
  intro k hk
  simp only [wordRRR, BitVec.getLsbD_or, BitVec.getLsbD_shiftLeft, BitVec.getLsbD_setWidth,
    BitVec.getLsbD_append]
  interval_cases k <;> simp

theorem or_of_fields_imm (op a : Nibble) (imm : Byte) :
    (op.setWidth 16 <<< 12) ||| (a.setWidth 16 <<< 8) ||| imm.setWidth 16 = wordRI op a imm := by
  apply BitVec.eq_of_getLsbD_eq
  intro k hk
  simp only [wordRI, BitVec.getLsbD_or, BitVec.getLsbD_shiftLeft, BitVec.getLsbD_setWidth,
    BitVec.getLsbD_append]
  interval_cases k <;> simp

/-- A word is its own fields put together (R72). -/
theorem wordRRR_fields (w : InstrWord) : wordRRR (opField w) (aField w) (bField w) (cField w) = w := by
  apply BitVec.eq_of_toNat_eq
  rw [toNat_wordRRR, opField, aField, bField, cField]
  simp only [BitVec.extractLsb'_toNat, Nat.shiftRight_eq_div_pow]
  have := w.isLt
  omega

/-- A word is its own fields put together, `b : c` as `imm8` (R72). -/
theorem wordRI_fields (w : InstrWord) : wordRI (opField w) (aField w) (immField w) = w := by
  apply BitVec.eq_of_toNat_eq
  rw [toNat_wordRI, opField, aField, immField]
  simp only [BitVec.extractLsb'_toNat, Nat.shiftRight_eq_div_pow]
  have := w.isLt
  omega

end Sys2Proof
end

