-- ==== Sys2Proof/Laws/Memory.lean ====
section
/-! SUPPORT. The memory controller's laws: a read after a write, and the canonical form. The read laws hold
of every list; only the canonical form asks for the canonical form. -/
namespace Sys2Proof.Machine

theorem Memory.lookup_erase (j k : Nat) (m : Memory) :
    (m.erase k).lookup j = if j = k then Memory.unlisted else m.lookup j := by
  induction m with
  | nil => simp [Memory.erase, Memory.lookup]
  | cons c rest ih =>
    by_cases hc : c.1 = k
    · by_cases hj : j = k
      · subst hj
        simpa [Memory.erase, hc] using ih
      · have : ¬ k = j := fun h => hj h.symm
        simp [Memory.erase, Memory.lookup, hc, ih, hj, this]
    · by_cases hj : j = k
      · subst hj
        simp [Memory.erase, Memory.lookup, hc, ih]
      · simp [Memory.erase, Memory.lookup, hc, ih, hj]

theorem Memory.lookup_insert_other {j k : Nat} (h : j ≠ k) (v : Byte) (m : Memory) :
    (m.insert k v).lookup j = m.lookup j := by
  have hkj : ¬ k = j := fun e => h e.symm
  induction m with
  | nil => simp [Memory.insert, Memory.lookup, hkj]
  | cons c rest ih => unfold Memory.insert; split <;> simp [Memory.lookup, hkj, ih]

theorem Memory.lookup_insert_same (k : Nat) (v : Byte) (m : Memory) :
    ((m.erase k).insert k v).lookup k = v := by
  induction m with
  | nil => simp [Memory.erase, Memory.insert, Memory.lookup]
  | cons c rest ih =>
    by_cases hc : c.1 = k
    · simpa [Memory.erase, hc] using ih
    · simp only [Memory.erase, hc, if_false, Memory.insert]
      split <;> simp [Memory.lookup, hc, ih]

/-- A read of the byte just written gives it (R50, R59). -/
theorem Memory.read_write_same (m : Memory) (addr : Addr) (v : Byte) :
    (m.write addr v).read addr = v := by
  unfold Memory.write Memory.read
  split
  · simp [Memory.lookup_erase, *]
  · exact Memory.lookup_insert_same _ _ _

/-- A write changes no other byte (R50). -/
theorem Memory.read_write_other (m : Memory) {a b : Addr} (v : Byte) (h : b ≠ a) :
    (m.write a v).read b = m.read b := by
  have hn : b.toNat ≠ a.toNat := fun e => h (BitVec.eq_of_toNat_eq e)
  unfold Memory.write Memory.read
  split
  · simp [Memory.lookup_erase, hn]
  · rw [Memory.lookup_insert_other hn, Memory.lookup_erase, if_neg hn]

theorem Memory.read_write (m : Memory) (a b : Addr) (v : Byte) :
    (m.write a v).read b = if b = a then v else m.read b := by
  split
  · subst_vars; exact Memory.read_write_same m _ v
  · exact Memory.read_write_other m v ‹_›

/-! ### The canonical form -/

/-- The canonical form of a list with a head, as its four parts. -/
theorem Memory.wf_cons {c : Host.Cell} {rest : Memory} :
    Memory.wf (c :: rest) = true ↔
      c.1 < 65536 ∧ c.2 ≠ Memory.unlisted ∧ (∀ d ∈ rest, c.1 < d.1) ∧ Memory.wf rest = true := by
  simp [Memory.wf, and_assoc]

theorem Memory.mem_of_mem_erase {k : Nat} {m : Memory} {d : Host.Cell} (h : d ∈ m.erase k) :
    d ∈ m ∧ d.1 ≠ k := by
  induction m with
  | nil => simp [Memory.erase] at h
  | cons c rest ih =>
    by_cases hc : c.1 = k
    · simp only [Memory.erase, hc, if_true] at h
      exact ⟨List.mem_cons_of_mem _ (ih h).1, (ih h).2⟩
    · simp only [Memory.erase, hc, if_false, List.mem_cons] at h
      rcases h with rfl | h
      · exact ⟨by simp, hc⟩
      · exact ⟨List.mem_cons_of_mem _ (ih h).1, (ih h).2⟩

theorem Memory.mem_insert {k : Nat} {v : Byte} {m : Memory} {d : Host.Cell} :
    d ∈ m.insert k v ↔ d = (k, v) ∨ d ∈ m := by
  induction m with
  | nil => simp [Memory.insert]
  | cons c rest ih => unfold Memory.insert; split <;> simp [ih, or_left_comm]

theorem Memory.wf_erase {m : Memory} (k : Nat) (h : m.wf = true) : (m.erase k).wf = true := by
  induction m with
  | nil => rfl
  | cons c rest ih =>
    obtain ⟨h1, h2, h3, h4⟩ := Memory.wf_cons.mp h
    unfold Memory.erase
    split
    · exact ih h4
    · exact Memory.wf_cons.mpr ⟨h1, h2, fun d hd => h3 d (Memory.mem_of_mem_erase hd).1, ih h4⟩

theorem Memory.wf_insert {m : Memory} {k : Nat} {v : Byte} (hk : k < 65536) (hv : v ≠ Memory.unlisted)
    (hm : ∀ d ∈ m, d.1 ≠ k) (h : m.wf = true) : (m.insert k v).wf = true := by
  induction m with
  | nil => simp [Memory.insert, Memory.wf, hk, hv]
  | cons c rest ih =>
    obtain ⟨h1, h2, h3, h4⟩ := Memory.wf_cons.mp h
    have hck : c.1 ≠ k := hm c (by simp)
    unfold Memory.insert
    split
    · rename_i hlt
      refine Memory.wf_cons.mpr ⟨hk, hv, fun d hd => ?_, h⟩
      rcases List.mem_cons.mp hd with rfl | hd
      · exact hlt
      · exact lt_trans hlt (h3 d hd)
    · rename_i hge
      refine Memory.wf_cons.mpr ⟨h1, h2, fun d hd => ?_, ih (fun d hd => hm d (by simp [hd])) h4⟩
      rcases Memory.mem_insert.mp hd with rfl | hd
      · show c.1 < k
        omega
      · exact h3 d hd

/-- A write keeps the canonical form. -/
theorem Memory.wf_write {m : Memory} (addr : Addr) (v : Byte) (h : m.wf = true) :
    (m.write addr v).wf = true := by
  unfold Memory.write
  split
  · exact Memory.wf_erase _ h
  · exact Memory.wf_insert addr.isLt ‹_› (fun d hd => (Memory.mem_of_mem_erase hd).2)
      (Memory.wf_erase _ h)

/-- Memory after reset has the canonical form. -/
theorem State.reset_mem_wf : State.reset.mem.wf = true := rfl

end Sys2Proof.Machine
end

