-- ==== Sys2Proof/Laws/PerInstr.lean ====
section
/-! SUPPORT. Statements about every instruction as syntax, one lemma per constructor. -/

/-- The encoding of an instruction carries its opcode in the top four bits (R72, R75), and 0 in every bit
its format does not use (R92). -/
def Sys2Proof.Laws.EncodedFields.Statement (i : Sys2Proof.Instr) : Prop :=
  Sys2Proof.opField (Sys2Proof.encode i) = i.opcode ∧
    Sys2Proof.encode i &&& ~~~Sys2Proof.usedBits i.opcode = 0#16

namespace Sys2Proof.Laws.EncodedFields

theorem hlt : Statement .hlt := ⟨rfl, rfl⟩
theorem put (a : RegIdx) (imm : Byte) : Statement (.put a imm) :=
  ⟨opField_wordRI _ _ _, by simp [Instr.opcode, usedBits]⟩
theorem add (a b c : RegIdx) : Statement (.add a b c) :=
  ⟨opField_wordRRR _ _ _ _, by simp [Instr.opcode, usedBits]⟩
theorem sub (a b c : RegIdx) : Statement (.sub a b c) :=
  ⟨opField_wordRRR _ _ _ _, by simp [Instr.opcode, usedBits]⟩
theorem and (a b c : RegIdx) : Statement (.and a b c) :=
  ⟨opField_wordRRR _ _ _ _, by simp [Instr.opcode, usedBits]⟩
theorem or (a b c : RegIdx) : Statement (.or a b c) :=
  ⟨opField_wordRRR _ _ _ _, by simp [Instr.opcode, usedBits]⟩
theorem xor (a b c : RegIdx) : Statement (.xor a b c) :=
  ⟨opField_wordRRR _ _ _ _, by simp [Instr.opcode, usedBits]⟩
theorem shl (a b c : RegIdx) : Statement (.shl a b c) :=
  ⟨opField_wordRRR _ _ _ _, by simp [Instr.opcode, usedBits]⟩
theorem shr (a b c : RegIdx) : Statement (.shr a b c) :=
  ⟨opField_wordRRR _ _ _ _, by simp [Instr.opcode, usedBits]⟩
theorem addi (a b : RegIdx) (s : Int) : Statement (.addi a b s) :=
  ⟨opField_wordRRR _ _ _ _, by simp [Instr.opcode, usedBits]⟩
theorem ld (a b c : RegIdx) : Statement (.ld a b c) :=
  ⟨opField_wordRRR _ _ _ _, by simp [Instr.opcode, usedBits]⟩
theorem st (a b c : RegIdx) : Statement (.st a b c) :=
  ⟨opField_wordRRR _ _ _ _, by simp [Instr.opcode, usedBits]⟩
theorem cmp (a : RegIdx) : Statement (.cmp a) :=
  ⟨opField_wordRRR _ _ _ _, by revert a; decide⟩
theorem br (m : Nibble) (d : Int) : Statement (.br m d) :=
  ⟨opField_wordRI _ _ _, by simp [Instr.opcode, usedBits]⟩
theorem jmp (b c : RegIdx) : Statement (.jmp b c) :=
  ⟨opField_wordRRR _ _ _ _, by revert b c; decide⟩
theorem trap (arg : Nibble) (n : Byte) : Statement (.trap arg n) :=
  ⟨opField_wordRI _ _ _, by simp [Instr.opcode, usedBits]⟩

end Sys2Proof.Laws.EncodedFields
end

