-- ==== Sys2Proof/Laws/State.lean ====
section
/-! SUPPORT. One lemma per field of State and per update of it, so that no proof unfolds a record
update. -/
namespace Sys2Proof.Machine

/-! ### Writing a register -/

@[simp] theorem State.writeReg_mem (s : State) (i : RegIdx) (v : Byte) : (s.writeReg i v).mem = s.mem := rfl
@[simp] theorem State.writeReg_fault (s : State) (i : RegIdx) (v : Byte) :
    (s.writeReg i v).fault = s.fault := rfl
@[simp] theorem State.writeReg_trapTable (s : State) (i : RegIdx) (v : Byte) :
    (s.writeReg i v).trapTable = s.trapTable := rfl
@[simp] theorem State.writeReg_env (s : State) (i : RegIdx) (v : Byte) : (s.writeReg i v).env = s.env := rfl
@[simp] theorem State.writeReg_readMem (s : State) (i : RegIdx) (v : Byte) (addr : Addr) :
    (s.writeReg i v).readMem addr = s.readMem addr := rfl

/-! ### Writing a byte of memory -/

@[simp] theorem State.writeMem_regs (s : State) (addr : Addr) (v : Byte) :
    (s.writeMem addr v).regs = s.regs := rfl
@[simp] theorem State.writeMem_mem (s : State) (addr : Addr) (v : Byte) :
    (s.writeMem addr v).mem = s.mem.write addr v := rfl
@[simp] theorem State.writeMem_fault (s : State) (addr : Addr) (v : Byte) :
    (s.writeMem addr v).fault = s.fault := rfl
@[simp] theorem State.writeMem_trapTable (s : State) (addr : Addr) (v : Byte) :
    (s.writeMem addr v).trapTable = s.trapTable := rfl
@[simp] theorem State.writeMem_env (s : State) (addr : Addr) (v : Byte) :
    (s.writeMem addr v).env = s.env := rfl
@[simp] theorem State.writeMem_readReg (s : State) (addr : Addr) (v : Byte) (i : RegIdx) :
    (s.writeMem addr v).readReg i = s.readReg i := rfl
@[simp] theorem State.writeMem_pc (s : State) (addr : Addr) (v : Byte) : (s.writeMem addr v).pc = s.pc := rfl

/-! ### Writing PC, and the advance phase -/

@[simp] theorem State.setPc_mem (s : State) (t : Addr) : (s.setPc t).mem = s.mem := rfl
@[simp] theorem State.setPc_fault (s : State) (t : Addr) : (s.setPc t).fault = s.fault := rfl
@[simp] theorem State.setPc_trapTable (s : State) (t : Addr) : (s.setPc t).trapTable = s.trapTable := rfl
@[simp] theorem State.setPc_env (s : State) (t : Addr) : (s.setPc t).env = s.env := rfl
@[simp] theorem State.setPc_readMem (s : State) (t addr : Addr) :
    (s.setPc t).readMem addr = s.readMem addr := rfl

@[simp] theorem State.advance_mem (s : State) : s.advance.mem = s.mem := rfl
@[simp] theorem State.advance_fault (s : State) : s.advance.fault = s.fault := rfl
@[simp] theorem State.advance_trapTable (s : State) : s.advance.trapTable = s.trapTable := rfl
@[simp] theorem State.advance_env (s : State) : s.advance.env = s.env := rfl
@[simp] theorem State.advance_readMem (s : State) (addr : Addr) :
    s.advance.readMem addr = s.readMem addr := rfl

/-! ### Raising the fault -/

@[simp] theorem State.raiseFault_regs (s : State) (c : FaultCause) (w : InstrWord) (p : Addr) :
    (s.raiseFault c w p).regs = s.regs := rfl
@[simp] theorem State.raiseFault_mem (s : State) (c : FaultCause) (w : InstrWord) (p : Addr) :
    (s.raiseFault c w p).mem = s.mem := rfl
@[simp] theorem State.raiseFault_fault (s : State) (c : FaultCause) (w : InstrWord) (p : Addr) :
    (s.raiseFault c w p).fault = some { cause := c, word := w, pc0 := p } := rfl
@[simp] theorem State.raiseFault_trapTable (s : State) (c : FaultCause) (w : InstrWord) (p : Addr) :
    (s.raiseFault c w p).trapTable = s.trapTable := rfl
@[simp] theorem State.raiseFault_env (s : State) (c : FaultCause) (w : InstrWord) (p : Addr) :
    (s.raiseFault c w p).env = s.env := rfl

/-! ### The environment -/

@[simp] theorem State.setWorld_regs (s : State) (w : World) : (s.setWorld w).regs = s.regs := rfl
@[simp] theorem State.setWorld_mem (s : State) (w : World) : (s.setWorld w).mem = s.mem := rfl
@[simp] theorem State.setWorld_fault (s : State) (w : World) : (s.setWorld w).fault = s.fault := rfl
@[simp] theorem State.setWorld_trapTable (s : State) (w : World) :
    (s.setWorld w).trapTable = s.trapTable := rfl
@[simp] theorem State.setWorld_world (s : State) (w : World) : (s.setWorld w).env.world = w := rfl
@[simp] theorem State.setWorld_answers (s : State) (w : World) :
    (s.setWorld w).env.answers = s.env.answers := rfl
@[simp] theorem State.setWorld_served (s : State) (w : World) :
    (s.setWorld w).env.served = s.env.served := rfl
@[simp] theorem State.setWorld_readReg (s : State) (w : World) (i : RegIdx) :
    (s.setWorld w).readReg i = s.readReg i := rfl
@[simp] theorem State.setWorld_readMem (s : State) (w : World) (addr : Addr) :
    (s.setWorld w).readMem addr = s.readMem addr := rfl

@[simp] theorem State.serveOracle_regs (s : State) : s.serveOracle.regs = s.regs := rfl
@[simp] theorem State.serveOracle_mem (s : State) : s.serveOracle.mem = s.mem := rfl
@[simp] theorem State.serveOracle_fault (s : State) : s.serveOracle.fault = s.fault := rfl
@[simp] theorem State.serveOracle_trapTable (s : State) : s.serveOracle.trapTable = s.trapTable := rfl
@[simp] theorem State.serveOracle_world (s : State) : s.serveOracle.env.world = s.env.world := rfl
@[simp] theorem State.serveOracle_answers (s : State) :
    s.serveOracle.env.answers = s.env.answers.tail := rfl
@[simp] theorem State.serveOracle_served (s : State) :
    s.serveOracle.env.served = s.env.served + 1 := rfl
@[simp] theorem State.serveOracle_readReg (s : State) (i : RegIdx) :
    s.serveOracle.readReg i = s.readReg i := rfl
@[simp] theorem State.serveOracle_readMem (s : State) (addr : Addr) :
    s.serveOracle.readMem addr = s.readMem addr := rfl

end Sys2Proof.Machine
end

