-- ==== Sys2Proof/Laws/Registers.lean ====
section
/-! SUPPORT. The register file's laws: a read after a write, PC as a pair, and the state read back through
its two accessors. -/
namespace Sys2Proof.Machine

/-! ### The reserved roles are different registers (R21) -/

@[simp] theorem Reg.pch_ne_pcl : Reg.pch ≠ Reg.pcl := by decide
@[simp] theorem Reg.pcl_ne_pch : Reg.pcl ≠ Reg.pch := by decide
@[simp] theorem Reg.st_ne_pch : Reg.st ≠ Reg.pch := by decide
@[simp] theorem Reg.st_ne_pcl : Reg.st ≠ Reg.pcl := by decide
@[simp] theorem Reg.pch_ne_st : Reg.pch ≠ Reg.st := by decide
@[simp] theorem Reg.pcl_ne_st : Reg.pcl ≠ Reg.st := by decide

/-! ### Reads after writes -/

@[simp] theorem State.readReg_writeReg_same (s : State) (i : RegIdx) (v : Byte) :
    (s.writeReg i v).readReg i = v := by
  simp [State.readReg, State.writeReg]

theorem State.readReg_writeReg_other (s : State) {i j : RegIdx} (v : Byte) (h : j ≠ i) :
    (s.writeReg i v).readReg j = s.readReg j := by
  have hn : i.toNat ≠ j.toNat := fun e => h (BitVec.eq_of_toNat_eq e.symm)
  simp only [State.readReg, State.writeReg]
  exact Vector.getElem_set_ne _ _ hn

theorem State.readReg_writeReg (s : State) (i j : RegIdx) (v : Byte) :
    (s.writeReg i v).readReg j = if j = i then v else s.readReg j := by
  split
  · subst_vars; simp
  · exact s.readReg_writeReg_other v ‹_›

@[simp] theorem State.readMem_writeMem_same (s : State) (addr : Addr) (v : Byte) :
    (s.writeMem addr v).readMem addr = v := Memory.read_write_same _ _ _

theorem State.readMem_writeMem (s : State) (a b : Addr) (v : Byte) :
    (s.writeMem a v).readMem b = if b = a then v else s.readMem b := Memory.read_write _ _ _ _

/-! ### Halves and pairs -/

theorem toNat_pair (hi lo : Byte) : (pair hi lo).toNat = hi.toNat * 256 + lo.toNat :=
  toNat_append_add hi lo

@[simp] theorem hiByte_pair (hi lo : Byte) : hiByte (pair hi lo) = hi := by
  apply BitVec.eq_of_toNat_eq
  rw [hiByte, BitVec.extractLsb'_toNat, toNat_pair, Nat.shiftRight_eq_div_pow]
  have := lo.isLt; have := hi.isLt
  omega

@[simp] theorem loByte_pair (hi lo : Byte) : loByte (pair hi lo) = lo := by
  apply BitVec.eq_of_toNat_eq
  rw [loByte, BitVec.extractLsb'_toNat, toNat_pair, Nat.shiftRight_eq_div_pow]
  have := lo.isLt; have := hi.isLt
  omega

@[simp] theorem pair_hiByte_loByte (t : Addr) : pair (hiByte t) (loByte t) = t := by
  apply BitVec.eq_of_toNat_eq
  rw [toNat_pair, hiByte, loByte, BitVec.extractLsb'_toNat, BitVec.extractLsb'_toNat,
    Nat.shiftRight_eq_div_pow]
  have := t.isLt
  omega

/-! ### PC -/

@[simp] theorem State.pc_setPc (s : State) (t : Addr) : (s.setPc t).pc = t := by
  have h : Reg.pch ≠ Reg.pcl := by decide
  simp [State.pc, State.setPc, State.readReg_writeReg_other _ _ h]

theorem State.readReg_setPc (s : State) (t : Addr) (i : RegIdx) :
    (s.setPc t).readReg i =
      if i = Reg.pcl then loByte t else if i = Reg.pch then hiByte t else s.readReg i := by
  simp only [State.setPc, State.readReg_writeReg]

theorem State.readReg_setPc_other (s : State) (t : Addr) {i : RegIdx} (h : i ≠ Reg.pch) (h' : i ≠ Reg.pcl) :
    (s.setPc t).readReg i = s.readReg i := by
  simp [State.readReg_setPc, h, h']

@[simp] theorem State.st_setPc (s : State) (t : Addr) : (s.setPc t).st = s.st := by
  simp [State.st, State.readReg_setPc]

@[simp] theorem State.st_advance (s : State) : s.advance.st = s.st := s.st_setPc _

@[simp] theorem State.st_writeReg_st (s : State) (v : Byte) : (s.writeReg Reg.st v).st = v :=
  s.readReg_writeReg_same _ v

@[simp] theorem State.pc_advance (s : State) : s.advance.pc = s.pc + 2 := s.pc_setPc _

/-- In the state the execute phase starts from, `pc0` is the address of the instruction (R15). -/
@[simp] theorem State.pc0_advance (s : State) : s.advance.pc0 = s.pc := by
  simp [State.pc0]

end Sys2Proof.Machine
end

