-- ==== Sys2Proof/Laws/Trap.lean ====
section
/-! SUPPORT. What the trap multiplexer can do: a handler keeps the latch, the Trap Table and the canonical
form of memory (R165), and `trap` has three outcomes and no other. -/
namespace Sys2Proof.Machine

/-- What a handler cannot touch (R165), and the form it keeps. -/
def State.HandlerKeeps (s t : State) : Prop :=
  t.fault = s.fault ∧ t.trapTable = s.trapTable ∧ (s.mem.wf = true → t.mem.wf = true)

theorem State.applyHandlerOp_keeps (s : State) (op : HandlerOp) : s.HandlerKeeps (s.applyHandlerOp op) := by
  cases op with
  | regRead i => exact ⟨rfl, rfl, id⟩
  | regWrite i v => exact ⟨rfl, rfl, id⟩
  | memRead a => exact ⟨rfl, rfl, id⟩
  | memWrite a v => exact ⟨rfl, rfl, Memory.wf_write a v⟩

theorem State.applyHandlerOps_keeps (s : State) (ops : List HandlerOp) :
    s.HandlerKeeps (s.applyHandlerOps ops) := by
  induction ops generalizing s with
  | nil => exact ⟨rfl, rfl, id⟩
  | cons op ops ih =>
    obtain ⟨h1, h2, h3⟩ := s.applyHandlerOp_keeps op
    obtain ⟨k1, k2, k3⟩ := ih (s.applyHandlerOp op)
    exact ⟨k1.trans h1, k2.trans h2, k3 ∘ h3⟩

/-- If an invocation answers a state, it kept what no handler can touch (R165). -/
theorem State.invokeTrap_keeps {s t : State} {entry : TrapEntry} {n : Byte} {arg : Nibble}
    (h : s.invokeTrap entry n arg = some t) : s.HandlerKeeps t := by
  cases entry with
  | oracle =>
    simp only [State.invokeTrap] at h
    cases ha : s.oracleAnswer n arg with
    | blocks => simp [ha, State.applyAnswer] at h
    | returns ops world =>
      simp only [ha, State.applyAnswer, Option.some.injEq] at h
      subst h
      exact s.serveOracle.applyHandlerOps_keeps ops
  | conout =>
    simp only [State.invokeTrap, Option.some.injEq] at h
    subst h
    exact ⟨rfl, rfl, id⟩
  | conin =>
    simp only [State.invokeTrap, State.conin] at h
    split at h
    · cases h
    · simp only [Option.some.injEq] at h
      subst h
      exact ⟨rfl, rfl, id⟩

/-- Everything `trap` can do (R147): raise the fault, complete with what the handler left, or never
complete. -/
theorem execTrap_cases (arg : Nibble) (n : Byte) (s : State) :
    (s.trapCount ≤ n.toNat ∧
      execTrap arg n s = .next (s.raiseFault .trapIndexOutOfBounds (encode (.trap arg n)) s.pc0)) ∨
    (∃ entry t, s.trapTable[n.toNat]? = some entry ∧ s.invokeTrap entry n arg = some t ∧
      execTrap arg n s = .next t) ∨
    (∃ entry, s.trapTable[n.toNat]? = some entry ∧ s.invokeTrap entry n arg = none ∧
      execTrap arg n s = .fault (.handlerNeverReturns n)) := by
  cases he : s.trapTable[n.toNat]? with
  | none => exact .inl ⟨by simpa [State.trapCount] using he, by simp [execTrap, trapIndex, he]⟩
  | some entry =>
    cases hi : s.invokeTrap entry n arg with
    | none => exact .inr (.inr ⟨entry, rfl, hi, by simp [execTrap, trapIndex, he, hi]⟩)
    | some t => exact .inr (.inl ⟨entry, t, rfl, hi, by simp [execTrap, trapIndex, he, hi]⟩)

/-- An entry exists exactly when the index is below `TRAP_COUNT` (R11, R147). -/
theorem State.trapTable_isSome (s : State) (n : Byte) :
    (∃ entry, s.trapTable[n.toNat]? = some entry) ↔ n.toNat < s.trapCount := by
  rw [← Option.isSome_iff_exists]
  simp [State.trapCount]

end Sys2Proof.Machine
end

