-- ==== Sys2Proof/Laws/Step.lean ====
section
/-! SUPPORT. What one execute phase and one step can do, said once: proofs cite these instead of unfolding
the meanings again. -/
namespace Sys2Proof.Machine

/-- Everything an execute phase that answers a state can have done: write its destination register, write or
keep PC, store one byte, or be a `trap` that raised the fault or ran a handler. -/
theorem exec_next_cases {i : Instr} {s t : State} (h : exec i s = .next t) :
    (∃ a v, destination i = some a ∧ isTrap i = false ∧ t = s.writeReg a v) ∨
    (writesPc i = true ∧ destination i = none ∧ isTrap i = false ∧ (t = s ∨ ∃ p, t = s.setPc p)) ∨
    (∃ a b c, i = .st a b c ∧ t = s.writeMem (s.regPair b c) (s.readReg a)) ∨
    (∃ arg n, i = .trap arg n ∧ s.trapCount ≤ n.toNat ∧
      t = s.raiseFault .trapIndexOutOfBounds (encode (.trap arg n)) s.pc0) ∨
    (∃ arg n entry, i = .trap arg n ∧ s.trapTable[n.toNat]? = some entry ∧
      s.invokeTrap entry n arg = some t) := by
  cases i with
  | hlt => cases h; exact .inl ⟨_, _, rfl, rfl, rfl⟩
  | put a imm => cases h; exact .inl ⟨_, _, rfl, rfl, rfl⟩
  | add a b c => cases h; exact .inl ⟨_, _, rfl, rfl, rfl⟩
  | sub a b c => cases h; exact .inl ⟨_, _, rfl, rfl, rfl⟩
  | and a b c => cases h; exact .inl ⟨_, _, rfl, rfl, rfl⟩
  | or a b c => cases h; exact .inl ⟨_, _, rfl, rfl, rfl⟩
  | xor a b c => cases h; exact .inl ⟨_, _, rfl, rfl, rfl⟩
  | shl a b c => cases h; exact .inl ⟨_, _, rfl, rfl, rfl⟩
  | shr a b c => cases h; exact .inl ⟨_, _, rfl, rfl, rfl⟩
  | addi a b imm => cases h; exact .inl ⟨_, _, rfl, rfl, rfl⟩
  | ld a b c => cases h; exact .inl ⟨_, _, rfl, rfl, rfl⟩
  | cmp a => cases h; exact .inl ⟨_, _, rfl, rfl, rfl⟩
  | st a b c => cases h; exact .inr (.inr (.inl ⟨a, b, c, rfl, rfl⟩))
  | jmp b c => cases h; exact .inr (.inl ⟨rfl, rfl, rfl, .inr ⟨_, rfl⟩⟩)
  | br m d =>
    refine .inr (.inl ⟨rfl, rfl, rfl, ?_⟩)
    simp only [exec, execBr, Host.Outcome.next.injEq] at h
    split at h
    · exact .inr ⟨_, h.symm⟩
    · exact .inl h.symm
  | trap arg n =>
    refine .inr (.inr (.inr ?_))
    simp only [exec] at h
    rcases execTrap_cases arg n s with ⟨hc, he⟩ | ⟨entry, u, ht, hi, he⟩ | ⟨entry, ht, hi, he⟩
    · rw [he] at h; cases h; exact .inl ⟨arg, n, rfl, hc, rfl⟩
    · rw [he] at h; cases h; exact .inr ⟨arg, n, entry, rfl, ht, hi⟩
    · rw [he] at h; cases h

/-- An instruction other than `trap` completes from every state. -/
theorem exec_completes {i : Instr} (s : State) (h : isTrap i = false) : ∃ t, exec i s = .next t := by
  cases i with
  | trap arg n => cases h
  | _ => exact ⟨_, rfl⟩

/-- A step that answers a state: no fault was latched, and the execute phase of the fetched word answered
it. -/
theorem step_next {s t : State} (h : step s = .next t) :
    s.fault = none ∧ exec (decodeWord s.fetchWord) s.advance = .next t := by
  unfold step at h
  split at h
  · cases h
  · exact ⟨‹_›, h⟩

end Sys2Proof.Machine
end

