-- ==== Sys2Proof/Tests/Slice0.lean ====
section
/-! SUPPORT. Tests of single steps. The expected results are the spec's own: the vectors and programs of
spec/95_test_vectors.md, whose section is named at each, and the tables of 30_encoding.md and
42_branch_compare.md. Then the witnesses: for every statement with hypotheses, a state and operands that meet
them together. -/
namespace Sys2Proof.Tests
open Sys2Proof.Machine

/-- The reset state with PC, some registers and some bytes of memory set, and the word `w` at PC. -/
def at_ (pc : Addr) (w : Nat) (regs : List (RegIdx × Byte)) (mem : List (Addr × Byte)) : State :=
  (mem.foldl (fun s p => s.writeMem p.1 p.2)
    (regs.foldl (fun s p => s.writeReg p.1 p.2) (State.reset.setPc pc))).withFetchWord 16 w

/-- What a step leaves, as far as a test looks at it. -/
def see {α : Type} (o : Host.Outcome State Fault Refusal) (f : State → α) : Option α :=
  match o with
  | .next t => some (f t)
  | .fault _ => none
  | .refused _ => none

/-- A register after one step of the word `w` at 0x0200. -/
def reg (w : Nat) (i : RegIdx) (regs : List (RegIdx × Byte)) (mem : List (Addr × Byte) := []) :
    Option Byte := see (step (at_ 0x0200 w regs mem)) (·.readReg i)

/-- PC after one step of the word `w` at `pc`. -/
def pcAfter (pc : Addr) (w : Nat) (regs : List (RegIdx × Byte)) : Option Addr :=
  see (step (at_ pc w regs [])) (·.pc)

/-- The state with a Trap Table and a world. -/
def withTraps (s : State) (table : List TrapEntry) (input : List Byte) (answers : List HandlerAnswer) :
    State :=
  { s with trapTable := table, env := ⟨⟨input, []⟩, answers, 0⟩ }

/-! ### WellFormed: an ill-formed term for each check (R74) -/

theorem test_wf_addi : (Instr.addi 0 0 7).wellFormed = true ∧ (Instr.addi 0 0 8).wellFormed = false ∧
    (Instr.addi 0 0 (-8)).wellFormed = true ∧ (Instr.addi 0 0 (-9)).wellFormed = false := by decide
theorem test_wf_br : (Instr.br 0 127).wellFormed = true ∧ (Instr.br 0 128).wellFormed = false ∧
    (Instr.br 0 (-128)).wellFormed = true ∧ (Instr.br 0 (-129)).wellFormed = false := by decide

/-! ### Decoding: a word of every instruction, bit by bit from R73 and R75 -/

theorem test_decode_hlt : decodeWord 0b0000000000000000#16 = .hlt := by decide
theorem test_decode_put : decodeWord 0b0001101001111111#16 = .put 0xA 0x7F := by decide
theorem test_decode_add : decodeWord 0b0010001101000101#16 = .add 3 4 5 := by decide
theorem test_decode_sub : decodeWord 0b0011000000010010#16 = .sub 0 1 2 := by decide
theorem test_decode_and : decodeWord 0b0100000000010010#16 = .and 0 1 2 := by decide
theorem test_decode_or : decodeWord 0b0101000000010010#16 = .or 0 1 2 := by decide
theorem test_decode_xor : decodeWord 0b0110000000010010#16 = .xor 0 1 2 := by decide
theorem test_decode_shl : decodeWord 0b0111011001010001#16 = .shl 6 5 1 := by decide
theorem test_decode_shr : decodeWord 0b1000011101010001#16 = .shr 7 5 1 := by decide
theorem test_decode_addi : decodeWord 0b1001000000011000#16 = .addi 0 1 (-8) := by decide
theorem test_decode_ld : decodeWord 0b1010010000100011#16 = .ld 4 2 3 := by decide
theorem test_decode_st : decodeWord 0b1011000000100011#16 = .st 0 2 3 := by decide
theorem test_decode_cmp : decodeWord 0b1100101100000000#16 = .cmp 0xB := by decide
theorem test_decode_br : decodeWord 0b1101011011111010#16 = .br 6 (-6) := by decide
theorem test_decode_jmp : decodeWord 0b1110000010001001#16 = .jmp 8 9 := by decide
theorem test_decode_trap : decodeWord 0b1111001000000001#16 = .trap 2 1 := by decide
/-- R77, and 2.1: words whose ignored bits are set. -/
theorem test_decode_ignored : decodeWord 0x0ABC#16 = .hlt ∧ decodeWord 0xC0FF#16 = .cmp 0 ∧
    decodeWord 0xEA01#16 = .jmp 0 1 := by decide
/-- R78. -/
theorem test_decode_ones : decodeWord 0xFFFF#16 = .trap 0xF 0xFF := by decide
/-- S10. -/
theorem test_encode_add : encode (.add 3 4 5) = 0x2345#16 ∧ encode (.put 0xA 0x7F) = 0x1A7F#16 := by decide
theorem test_table_word : decodeTableWord 16 0xD6FA = some (.br 6 (-6)) := by decide
theorem test_truncated : decodeBytes [0x10#8] = .error .truncated := rfl

/-! ### The step (2.1) -/

theorem test_odd_pc : see (step (at_ 0x0201 0x2012 [(1, 3), (2, 4)] [])) (fun t => (t.readReg 0, t.pc)) =
    some (0x07#8, 0x0203#16) := by decide
theorem test_word_straddles_top : see (step (at_ 0xFFFF 0x1041 [] []))
    (fun t => (t.readReg 0, t.pc)) = some (0x41#8, 0x0001#16) := by decide
theorem test_pc_wraps : pcAfter 0xFFFE 0x1041 [] = some 0x0000#16 := by decide

/-! ### Register and ALU instructions (2.2) -/

theorem test_put : reg 0x13FF 3 [] = some 0xFF#8 := by decide
theorem test_put_pch : pcAfter 0x0200 0x1E12 [] = some 0x1202#16 := by decide
theorem test_add_wraps : reg 0x2012 0 [(1, 0xF0), (2, 0x20)] = some 0x10#8 := by decide
theorem test_add_reads_advanced_pc : reg 0x20EF 0 [] = some 0x04#8 := by decide
theorem test_sub_wraps : reg 0x3012 0 [(1, 0x05), (2, 0x07)] = some 0xFE#8 := by decide
theorem test_sub_signed : reg 0x3012 0 [(1, 0x80), (2, 0x01)] = some 0x7F#8 := by decide
theorem test_and : reg 0x4012 0 [(1, 0xCC), (2, 0xAA)] = some 0x88#8 := by decide
theorem test_or : reg 0x5012 0 [(1, 0xCC), (2, 0xAA)] = some 0xEE#8 := by decide
theorem test_xor : reg 0x6012 0 [(1, 0xCC), (2, 0xAA)] = some 0x66#8 := by decide
theorem test_shl_amount_8 : reg 0x7012 0 [(1, 0x81), (2, 0x08)] = some 0x81#8 := by decide
theorem test_shl_own_amount : reg 0x7111 1 [(1, 0x03)] = some 0x18#8 := by decide
theorem test_shr_logical : reg 0x8012 0 [(1, 0x80), (2, 0x07)] = some 0x01#8 := by decide
theorem test_shr_amount_fc : reg 0x8012 0 [(1, 0xFF), (2, 0xFC)] = some 0x0F#8 := by decide
theorem test_addi_negative : reg 0x9018 0 [(1, 0x05)] = some 0xFD#8 := by decide
theorem test_addi_pch_carry : see (step (at_ 0x12FE 0x90E0 [] [])) (fun t => (t.readReg 0, t.pc)) =
    some (0x13#8, 0x1300#16) := by decide

/-! ### Memory instructions (2.3) -/

theorem test_ld_old_address : reg 0xA223 2 [(2, 0x01), (3, 0x00)] [(0x0100, 0x5A)] = some 0x5A#8 := by
  decide
theorem test_ld_next_instruction : reg 0xA0EF 0 [] [(0x0202, 0xAB)] = some 0xAB#8 := by decide
theorem test_st_pcl : see (step (at_ 0x0200 0xBF12 [(1, 0x03), (2, 0x00)] [])) (·.readMem 0x0300) =
    some 0x02#8 := by decide
theorem test_st_own_word : see (step (at_ 0x0200 0xB012 [(0, 0x77), (1, 0x02), (2, 0x01)] []))
    (fun t => (t.readMem 0x0200, t.readMem 0x0201, t.pc)) = some (0xB0#8, 0x77#8, 0x0202#16) := by decide

/-! ### Compare, branch, jump (2.4 to 2.6) -/

theorem test_cmp_keeps_bits : reg 0xC000 11 [(0, 0x00), (11, 0x7C)] = some 0x79#8 := by decide
theorem test_cmp_st : reg 0xCB00 11 [(11, 0x01)] = some 0x04#8 := by decide
theorem test_br_back : pcAfter 0x000A 0xD6FA [(11, 0x04)] = some 0x0004#16 := by decide
theorem test_br_wraps : pcAfter 0x0000 0xD8FE [] = some 0xFFFE#16 ∧
    pcAfter 0x0200 0xD710 [] = some 0x0202#16 := by decide
theorem test_jmp_swapped : pcAfter 0x0210 0xE0FE [] = some 0x1202#16 := by decide
theorem test_jmp : pcAfter 0x0200 0xE001 [(0, 0x12), (1, 0x34)] = some 0x1234#16 := by decide

/-! ### Halt and trap (2.7) -/

theorem test_hlt : reg 0x0000 11 [(11, 0x05)] = some 0x85#8 := by decide
theorem test_hlt_again : pcAfter 0x0200 0x0000 [(11, 0x80)] = some 0x0202#16 := by decide
theorem test_trap_conout : see (step (withTraps (at_ 0x0200 0xF300 [(3, 0x0A), (0, 0x41)] []) [.conout] [] []))
    (·.env.world.consoleOut) = some [0x0A#8] := by decide
theorem test_trap_latches : see (step (withTraps (at_ 0x0200 0xF001 [] []) [.conout] [] [])) (·.fault) =
    some (some ⟨.trapIndexOutOfBounds, 0xF001#16, 0x0200#16⟩) := by decide
/-- P7, step 1. -/
theorem test_trap_conin : see (step (withTraps (at_ 0x0000 0xF501 [] []) [.conout, .conin] [0x81#8] []))
    (fun t => (t.readReg 5, t.env.world.consoleIn)) = some (0x81#8, []) := by decide

/-! ### Reset, load, run and assembly (2.8, S6, S9, S11, P1, P6) -/

theorem test_reset : State.reset.pc = 0x0000#16 ∧ State.reset.halted = false := by decide
theorem test_load_wraps : see (State.reset.load [0xFF, 0xFF, 0x11, 0x22])
    (fun t => (t.readMem 0xFFFF, t.readMem 0x0000)) = some (0x11#8, 0x22#8) := by decide
theorem test_load_overlap : see (State.reset.loadAll [[0, 0, 1, 2], [0, 1, 9]])
    (fun t => (t.readMem 0x0000, t.readMem 0x0001)) = some (0x01#8, 0x09#8) := by decide
/-- P1. -/
theorem test_assemble_p1 : (assemble (List.map String.toList
    [".origin 00 00", "put 0 41", "trap 0 0", "hlt"])).toOption =
      some [0x00#8, 0x00#8, 0x10#8, 0x41#8, 0xF0#8, 0x00#8, 0x00#8, 0x00#8] := by decide
/-- P2's loop: a label before its use. -/
theorem test_assemble_label : (assemble (List.map String.toList
    [".origin 00 04", "'loop", "add 1 1 0", "addi 0 0 f", "cmp 0", "br 6 'loop"])).toOption =
      some [0x00#8, 0x04#8, 0x21#8, 0x10#8, 0x90#8, 0x0F#8, 0xC0#8, 0x00#8, 0xD6#8, 0xFA#8] := by decide
/-- S9. -/
theorem test_assemble_bytes : (assemble (List.map String.toList
    [".origin 00 00", ".b A\\x0a\\\\"])).toOption = some [0x00#8, 0x00#8, 0x41#8, 0x0A#8, 0x5C#8] := by decide
/-- S6. -/
theorem test_assemble_offset : (assemble (List.map String.toList
    [".origin 00 00", "put 0 01", ".offset 4", "hlt"])).toOption =
      some [0x00#8, 0x00#8, 0x10#8, 0x01#8, 0x00#8, 0x00#8, 0x00#8, 0x00#8, 0x00#8, 0x00#8] := by decide
/-- The first lines of P4: both halves of labels used before they are bound. -/
theorem test_assemble_halves : (assemble (List.map String.toList
    [".origin 01 00", "put 8 h'ret", "put 9 l'ret", "jmp 8 9", "'ret"])).toOption =
      some [0x01#8, 0x00#8, 0x18#8, 0x01#8, 0x19#8, 0x06#8, 0xE0#8, 0x89#8] := by decide

/-! ### Witnesses: the hypotheses of each statement are met, at the boundaries of each clause -/

/-- A state whose fetch word is `st 0 1 2` storing at the next instruction's first byte. -/
def storesNext (low : Byte) : State := at_ 0x0200 0xB012 [(0, 0x77), (1, 0x02), (2, low)] []

theorem witness_DecodeInvertsEncode : (Instr.addi 15 15 (-8)).wellFormed = true ∧
    (Instr.br 15 127).wellFormed = true := by decide
theorem witness_BytesOfAnInstructionDecode : (Instr.br 0 (-128)).wellFormed = true := by decide
theorem witness_IgnoredBitsAreNotExamined : opField 0x0ABC#16 = opField 0x0000#16 ∧
    0x0ABC#16 &&& usedBits (opField 0x0ABC#16) = 0x0000#16 &&& usedBits (opField 0x0000#16) := by decide
theorem witness_StepRunsTheDecodedInstruction :
    (at_ 0xFFFF 0x1041 [] []).fault = none ∧
      decodeBytes [(at_ 0xFFFF 0x1041 [] []).readMem 0xFFFF, (at_ 0xFFFF 0x1041 [] []).readMem 0x0000] =
        .ok (.put 0 0x41, []) ∧ (at_ 0xFFFF 0x1041 [] []).pc = 0xFFFF#16 := by
  refine ⟨by decide, ?_, by decide⟩
  rfl
theorem witness_LatchedCoreDoesNotExecute :
    (State.reset.raiseFault .trapIndexOutOfBounds 0xF000 0).fault =
      some ⟨.trapIndexOutOfBounds, 0xF000#16, 0#16⟩ := rfl
/-- A step that completes, and one whose handler never returns. -/
theorem witness_NothingButAHandlerStopsAStep :
    State.reset.fault = none ∧ (withTraps (at_ 0 0xF000 [] []) [.conin] [] []).fault = none ∧
      decodeWord (withTraps (at_ 0 0xF000 [] []) [.conin] [] []).fetchWord = .trap 0 0 ∧
      ((withTraps (at_ 0 0xF000 [] []) [.conin] [] []).advance.invokeTrap .conin 0 0).isNone = true := by
  decide
theorem witness_NextFetchSeesStore_first :
    decodeWord (storesNext 0x02).fetchWord = .st 0 1 2 ∧
      see (step (storesNext 0x02)) (fun t => decide ((storesNext 0x02).advance.regPair 1 2 = t.pc)) =
        some true := by decide
theorem witness_NextFetchSeesStore_second :
    decodeWord (storesNext 0x03).fetchWord = .st 0 1 2 ∧
      see (step (storesNext 0x03)) (fun t => decide ((storesNext 0x03).advance.regPair 1 2 = t.pc + 1)) =
        some true := by decide
/-- Both sides of the branch test, at the mask bits where they meet. -/
theorem witness_BrTestsMaskAndAddsToPc0 :
    pcAfter 0x0200 0xD710 [(11, 0x80)] = some 0x0202#16 ∧ pcAfter 0x0200 0xD710 [(11, 0x02)] = some 0x0210#16 ∧
      pcAfter 0x0200 0xD880 [] = some 0x0180#16 ∧ pcAfter 0xFFF0 0xD87F [] = some 0x006F#16 := by decide
/-- The values where Z, N and P meet (R138). -/
theorem witness_MaskMeaningAfterCompare :
    (see (exec (.cmp 0) (at_ 0 0 [(0, 0x00)] [])) (branchTaken 1 ·.st) = some true) ∧
      (see (exec (.cmp 0) (at_ 0 0 [(0, 0x01)] [])) (branchTaken 4 ·.st) = some true) ∧
      (see (exec (.cmp 0) (at_ 0 0 [(0, 0x7F)] [])) (branchTaken 4 ·.st) = some true) ∧
      (see (exec (.cmp 0) (at_ 0 0 [(0, 0x80)] [])) (branchTaken 2 ·.st) = some true) ∧
      (see (exec (.cmp 0) (at_ 0 0 [(0, 0xFF)] [])) (branchTaken 2 ·.st) = some true) := by decide
theorem witness_ExactlyOneConditionBitAfterCmp :
    exec (.cmp 11) State.reset = .next (State.reset.writeReg Reg.st (comparedStatus 0 0)) := rfl
theorem witness_OnlyCompareComputesConditionBits_hlt :
    exec .hlt State.reset = .next (State.reset.writeReg Reg.st (haltedStatus 0)) ∧ isTrap .hlt = false := ⟨rfl, rfl⟩
theorem witness_OnlyCompareComputesConditionBits_add :
    exec (.add 0 1 2) State.reset = .next (State.reset.writeReg 0 0) ∧ isTrap (.add 0 1 2) = false ∧
      destination (.add 0 1 2) ≠ some Reg.st := ⟨rfl, rfl, by decide⟩
/-- The index equal to `TRAP_COUNT`, with an empty table, one entry and 255 entries. -/
theorem witness_TrapIndexOutOfBoundsLatches :
    State.reset.trapTable.length ≤ (0#8).toNat ∧
      (withTraps State.reset [.conout] [] []).trapTable.length ≤ (1#8).toNat ∧
      (withTraps State.reset (List.replicate 255 .oracle) [] []).trapTable.length ≤ (255#8).toNat :=
  ⟨by decide, by decide, (List.length_replicate ..).le⟩
theorem witness_TrapRunsHandler :
    (withTraps State.reset [.oracle] [] [.returns [.regWrite 14 0x12, .memWrite 0 0x34] ⟨[], []⟩]).trapTable[
        (0#8).toNat]? = some .oracle ∧
      (withTraps State.reset [.oracle] [] [.returns [.regWrite 14 0x12, .memWrite 0 0x34] ⟨[], []⟩]).env.answers =
        .returns [.regWrite 14 0x12, .memWrite 0 0x34] ⟨[], []⟩ :: [] := ⟨rfl, rfl⟩
/-- The last entry of a full table. -/
theorem witness_TrapFollowsTheOracle :
    (withTraps State.reset (List.replicate 256 .oracle) [] [.blocks]).trapTable[(255#8).toNat]? =
        some .oracle ∧
      (withTraps State.reset (List.replicate 256 .oracle) [] [.blocks]).oracleAnswer 255 0 = .blocks := by
  refine ⟨?_, rfl⟩
  exact List.getElem?_replicate.trans (if_pos (by decide))
theorem witness_UnassumedHandlerMayLeaveAnything :
    (withTraps State.reset [.oracle] [] []).trapTable[(0#8).toNat]? = some .oracle := rfl
theorem witness_ConoutAppendsRegister :
    (withTraps State.reset [.conout] [] []).trapTable[(0#8).toNat]? = some .conout := rfl
/-- A byte to come, and none. -/
theorem witness_ConinDeliversNextByte :
    (withTraps State.reset [.conin] [0x79] []).trapTable[(0#8).toNat]? = some .conin ∧
      (withTraps State.reset [.conin] [0x79] []).env.world.consoleIn = 0x79 :: [] ∧
      (withTraps State.reset [.conin] [] []).env.world.consoleIn = [] := ⟨rfl, rfl, rfl⟩
theorem witness_OnlyBadTrapIndexSetsLatch :
    see (step (at_ 0x0200 0xF000 [] [])) (·.fault) =
      some (some ⟨.trapIndexOutOfBounds, 0xF000#16, 0x0200#16⟩) := by decide
theorem witness_OnlyTheDestinationIsWritten :
    exec (.put 3 0x12) State.reset = .next (State.reset.writeReg 3 0x12) ∧ isTrap (.put 3 0x12) = false ∧
      destination (.put 3 0x12) ≠ some 4 ∧ writesPc (.put 3 0x12) = false := ⟨rfl, rfl, by decide, rfl⟩
theorem witness_OnlyTheDestinationIsWritten_jmp :
    exec (.jmp 0 1) State.reset = .next (State.reset.setPc 0) ∧ destination (.jmp 0 1) ≠ some 13 ∧
      writesPc (.jmp 0 1) = true ∧ (13 : RegIdx) ≠ Reg.pch ∧ (13 : RegIdx) ≠ Reg.pcl :=
  ⟨rfl, by decide, rfl, by decide, by decide⟩
theorem witness_OnlyTheStoredByteChanges :
    exec (.st 0 1 2) State.reset = .next (State.reset.writeMem 0 0) ∧ isTrap (.st 0 1 2) = false ∧
      storeAddress (.st 0 1 2) State.reset ≠ some 1 := ⟨rfl, rfl, by decide⟩
theorem witness_TrapTableIsFixed :
    step State.reset = .next (State.reset.advance.writeReg Reg.st (haltedStatus State.reset.advance.st)) ∧
      isTrap (decodeWord State.reset.fetchWord) = false := ⟨by rfl, by decide⟩
theorem witness_WorldReachesCoreOnlyThroughTrap :
    (withTraps State.reset [.conin] [0x79] [.blocks]).regs = State.reset.regs ∧
      (withTraps State.reset [.conin] [0x79] [.blocks]).mem = State.reset.mem ∧
      State.reset.fault = none ∧ (withTraps State.reset [.conin] [0x79] [.blocks]).fault = none ∧
      isTrap (decodeWord State.reset.fetchWord) = false ∧
      (see (step State.reset) (·.pc)).isSome = true := by decide
theorem witness_StepKeepsInvariant :
    (at_ 0x0200 0xB012 [(0, 0x77), (1, 0xFF), (2, 0xFF)] []).Inv ∧
      (see (step (at_ 0x0200 0xB012 [(0, 0x77), (1, 0xFF), (2, 0xFF)] [])) (·.readMem 0xFFFF)) =
        some 0x77#8 := by
  refine ⟨⟨by decide, by decide⟩, by decide⟩
/-- A byte of the payload, also where it wraps, and an address outside it. -/
theorem witness_LoadPlacesPayload :
    (1 < [0x11#8, 0x22#8].length ∧ [0x11#8, 0x22#8].length ≤ 1 + 65536) ∧
      BitVec.ofNat 16 ((0xFF * 256 + 0xFF + 1) % 65536) = 0x0000#16 ∧
      (∀ k, k < [0x11#8, 0x22#8].length → (0x0001#16).toNat ≠ (0xFF * 256 + 0xFF + k) % 65536) := by
  refine ⟨by decide, by decide, ?_⟩
  intro k hk
  have : k < 2 := hk
  interval_cases k <;> decide
theorem witness_ShortImageIsRefused : [0x12#8].length < 2 ∧ ([] : List Byte).length < 2 := by decide
/-- S11's overlapping images: the first image's first byte stays, its second is overwritten. -/
theorem witness_LaterImageWins : (0 < [0x09#8].length ∧ [0x09#8].length ≤ 0 + 65536) ∧
    (0 < [0x01#8, 0x02#8].length ∧ [0x01#8, 0x02#8].length ≤ 0 + 65536) ∧
      (∀ j, j < [0x09#8].length → (0 * 256 + 1 + j) % 65536 ≠ (0 * 256 + 0 + 0) % 65536) := by
  refine ⟨by decide, by decide, ?_⟩
  intro j hj
  have : j < 1 := hj
  interval_cases j
  decide
/-- S11's overlapping images: the byte at 1 is covered by the second image, the last one, the byte at 0 by the
first alone, and the byte at 2 by none. -/
theorem witness_LaunchStateIsResetPlusLoads :
    (∀ image ∈ [[0x00#8, 0x00#8, 0x01#8, 0x02#8], [0x00#8, 0x01#8, 0x09#8]], 2 ≤ image.length) ∧
      (see (State.launch ResetParams.default [[0x00, 0x00, 0x01, 0x02], [0x00, 0x01, 0x09]]) fun t =>
        (t.readMem 0x0000, t.readMem 0x0001, t.readMem 0x0002)) = some (0x01#8, 0x09#8, 0x00#8) ∧
      imageAddr [0x00#8, 0x00#8, 0x01#8, 0x02#8] 0 = (0x0000#16).toNat ∧
      imageAddr [0x00#8, 0x01#8, 0x09#8] 0 = (0x0001#16).toNat ∧
      (State.resetWith ResetParams.default).Inv := by
  refine ⟨by decide, by decide, by decide, by decide, ⟨by decide, by decide⟩⟩
theorem witness_LaunchStateIsResetPlusLoads_covered :
    ¬ Covers [0x00#8, 0x01#8, 0x09#8] 0x0000#16 ∧ ¬ Covers [0x00#8, 0x01#8, 0x09#8] 0x0002#16 ∧
      ¬ Covers [0x00#8, 0x00#8, 0x01#8, 0x02#8] 0x0002#16 := by
  refine ⟨?_, ?_, ?_⟩ <;> rintro ⟨k, hk, h⟩ <;> simp [imageAddr] at hk h <;> omega
theorem witness_RunFollowsTheHostLoop :
    State.reset.MayStep ∧ (see (step State.reset) (·.halted)) = some true ∧
      (State.reset.writeReg Reg.st 0x80).halted = true ∧
      (State.reset.raiseFault .trapIndexOutOfBounds 0xF000 0).fault.isSome = true := by
  refine ⟨⟨rfl, by decide⟩, by decide, by decide, rfl⟩
/-- A run that halts after one step. -/
theorem witness_EndedRunStaysAsItIs_halted : (match hostRun 1 State.reset with
    | .halted t => t.pc | _ => 0xFFFF#16) = 0x0002#16 := by decide
/-- A run that ends faulted after one step, from a state with no fault latched. -/
theorem witness_FaultedRunMetABadTrapIndex : (at_ 0x0200 0xF001 [] []).fault = none ∧
    hostRun 1 (at_ 0x0200 0xF001 [] []) = .faulted ⟨.trapIndexOutOfBounds, 0xF001#16, 0x0200#16⟩ :=
  ⟨by decide, by rfl⟩
theorem witness_EndedRunStaysAsItIs_faulted :
    hostRun 1 (at_ 0x0200 0xF001 [] []) = .faulted ⟨.trapIndexOutOfBounds, 0xF001#16, 0x0200#16⟩ := by rfl
theorem witness_RunKeepsInvariant : State.reset.Inv ∧
    (match hostRun 1 State.reset with | .halted _ => true | _ => false) = true ∧
    hostRun 0 State.reset = .running State.reset := ⟨⟨rfl, by decide⟩, by decide, by rfl⟩
theorem witness_LabelHalvesMakeTheAddress :
    labelAddress [(['r'], 0xFFFF)] ['r'] = .ok 0xFFFF ∧ labelAddress [(['r'], 0x10002)] ['r'] = .ok 0x10002 := ⟨rfl, rfl⟩
/-- S3's table of displacements: the last accepted and the first refused on both sides. -/
theorem witness_AssembledBranchReachesItsLabel :
    labelAddress [(['t'], 1000)] ['t'] = .ok 1000 ∧
      emitBranch 8 1128 1000 = .ok [0xD8#8, 0x80#8] ∧ emitBranch 8 873 1000 = .ok [0xD8#8, 0x7F#8] ∧
      emitBranch 8 1129 1000 = .error .branchOutOfRange ∧
      emitBranch 8 872 1000 = .error .branchOutOfRange ∧
      (at_ 873 0 [] []).pc = BitVec.ofNat 16 873 := by
  refine ⟨rfl, rfl, rfl, rfl, rfl, by decide⟩
/-- Taken by mask bit 3, taken by a condition bit, and not taken. -/
theorem witness_AssembledBranchReachesItsLabel_taken :
    branchTaken 8 (at_ 873 0 [] []).st = true ∧ branchTaken 1 (at_ 873 0 [(11, 0x01)] []).st = true ∧
      (at_ 873 0 [(11, 0x01)] []).pc = BitVec.ofNat 16 873 ∧ branchTaken 1 (at_ 873 0 [] []).st = false := by
  decide
theorem witness_SourceReadsAdvancedPc : (at_ 0x12FF 0x900F [] []).fault = none ∧
    ((at_ 0x12FF 0x900F [] []).advance.readReg Reg.pch, (at_ 0x12FF 0x900F [] []).advance.readReg Reg.pcl) =
      (0x13#8, 0x01#8) := by decide
theorem witness_WritingAHalfOfPcJumps : destination (.add Reg.pcl 1 2) = some Reg.pcl ∧
    destination (.ld Reg.pch 1 2) = some Reg.pch := by decide

end Sys2Proof.Tests
end

/-! PROOFS of the statements on the scope of the core: what every step and every run keep (O43, O38, O54),
what a `trap` to an oracle handler does (O31), and what a source operand that names a half of PC reads
(O40). -/
namespace Sys2Proof.Machine

/-! ### What a step and a run keep -/

/-- From `s` to `t` the Trap Table is the same and the canonical form of memory is not lost. -/
def State.KeepsData (s t : State) : Prop :=
  t.trapTable = s.trapTable ∧ (s.mem.wf = true → t.mem.wf = true)

theorem State.KeepsData.refl (s : State) : s.KeepsData s := ⟨rfl, id⟩

theorem State.KeepsData.trans {s t u : State} (h : s.KeepsData t) (h' : t.KeepsData u) :
    s.KeepsData u :=
  ⟨h'.1.trans h.1, h'.2 ∘ h.2⟩

theorem State.KeepsData.inv {s t : State} (h : s.KeepsData t) (hs : s.Inv) : t.Inv :=
  ⟨h.2 hs.1, h.1 ▸ hs.2⟩

theorem State.HandlerKeeps.keepsData {s t : State} (h : s.HandlerKeeps t) : s.KeepsData t := h.2

/-- The only write of memory outside a `trap` is the store's, and the only thing a `trap` does to memory
is its handler's doing. -/
theorem exec_keepsData {i : Instr} {s t : State} (h : exec i s = .next t) : s.KeepsData t := by
  rcases exec_next_cases h with
    ⟨a, v, -, -, rfl⟩ | ⟨-, -, -, rfl | ⟨p, rfl⟩⟩ | ⟨a, b, c, -, rfl⟩ | ⟨arg, n, -, -, rfl⟩ |
    ⟨arg, n, entry, -, -, hinvoke⟩
  · exact .refl s
  · exact .refl t
  · exact .refl s
  · exact ⟨rfl, Memory.wf_write _ _⟩
  · exact .refl s
  · exact (State.invokeTrap_keeps hinvoke).keepsData

theorem exec_sameOutside {i : Instr} {s t : State} (h : exec i s = .next t) (hi : isTrap i = false) :
    SameOutside s t := by
  rcases exec_next_cases h with
    ⟨a, v, -, -, rfl⟩ | ⟨-, -, -, rfl | ⟨p, rfl⟩⟩ | ⟨a, b, c, -, rfl⟩ | ⟨arg, n, rfl, -⟩ |
    ⟨arg, n, entry, rfl, -⟩
  · exact ⟨rfl, rfl, rfl⟩
  · exact ⟨rfl, rfl, rfl⟩
  · exact ⟨rfl, rfl, rfl⟩
  · exact ⟨rfl, rfl, rfl⟩
  · cases hi
  · cases hi

theorem step_keepsData {s t : State} (h : step s = .next t) : s.KeepsData t :=
  -- the advance phase writes registers alone
  have hadvance : s.KeepsData s.advance := .refl s
  hadvance.trans (exec_keepsData (step_next h).2)

/-- The state a run of the host's loop has halted in or come to (R33), if it is there at all, is the one it
started from or the one that the rest of the run, from the next state on, comes to. -/
theorem hostRun_reaches_cases {k : Nat} {s t : State}
    (h : hostRun k s = .halted t ∨ hostRun k s = .running t) :
    t = s ∨ ∃ j u, k = j + 1 ∧ step s = .next u ∧
      (hostRun j u = .halted t ∨ hostRun j u = .running t) := by
  unfold hostRun at h
  cases hfault : s.fault with
  | some r => simp [hfault] at h
  | none =>
    by_cases hhalted : s.halted = true
    · exact .inl (by simpa [hfault, hhalted, eq_comm] using h)
    · cases k with
      | zero => exact .inl (by simpa [hfault, hhalted, eq_comm] using h)
      | succ j =>
        cases hstep : step s with
        | next u => exact .inr ⟨j, u, rfl, rfl, by simpa [hfault, hhalted, hstep] using h⟩
        | fault r => simp [hfault, hhalted, hstep] at h
        | refused r => simp [hfault, hhalted, hstep] at h

/-- What every step keeps holds wherever a run has come to. -/
theorem hostRun_keeps {P : State → Prop} (hP : ∀ s t, P s → step s = .next t → P t) {k : Nat}
    {s t : State} (hs : P s) (h : hostRun k s = .halted t ∨ hostRun k s = .running t) : P t := by
  induction k generalizing s with
  | zero =>
    obtain rfl | ⟨j, u, hj, -⟩ := hostRun_reaches_cases h
    · exact hs
    · cases hj
  | succ k ih =>
    obtain rfl | ⟨j, u, hj, hu, hrest⟩ := hostRun_reaches_cases h
    · exact hs
    · cases hj
      exact ih (hP s u hs hu) hrest

/-- Settles O43: the step keeps the Trap Table and the canonical form. -/
theorem stepKeepsInvariant : Obligations.StepKeepsInvariant :=
  fun _ _ hs h => (step_keepsData h).inv hs

/-- Settles O38: over the advance phase, then over what the execute phase can do. -/
theorem trapTableIsFixed : Obligations.TrapTableIsFixed := by
  intro s t h
  refine ⟨(step_keepsData h).1, fun htrap => ?_⟩
  obtain ⟨hfault, -, henv⟩ := exec_sameOutside (step_next h).2 htrap
  exact ⟨hfault, henv⟩

/-- Settles O54: being reached from `s` with the data kept is itself an invariant of the run. -/
theorem runKeepsInvariant : Obligations.RunKeepsInvariant := by
  intro k s t hs h
  have hkeeps : s.KeepsData t :=
    hostRun_keeps (P := s.KeepsData) (fun _ _ hu hstep => hu.trans (step_keepsData hstep)) (.refl s) h
  exact ⟨hkeeps.inv hs, hkeeps.1⟩

/-! ### A trap to an oracle handler -/

/-- The registers after a handler's accesses are what `regAfter` folds (R8, R15). -/
theorem State.readReg_applyHandlerOps (s : State) (ops : List HandlerOp) (i : RegIdx) :
    (s.applyHandlerOps ops).readReg i = regAfter i (s.readReg i) ops := by
  induction ops generalizing s with
  | nil => rfl
  | cons op ops ih =>
    rw [State.applyHandlerOps, ih]
    cases op with
    | regWrite j v => simp only [applyHandlerOp, readReg_writeReg, regAfter, eq_comm]
    | regRead j => rfl
    | memRead a => rfl
    | memWrite a v => rfl

/-- The memory after a handler's accesses is what `byteAfter` folds (R8, R50). -/
theorem State.readMem_applyHandlerOps (s : State) (ops : List HandlerOp) (addr : Addr) :
    (s.applyHandlerOps ops).readMem addr = byteAfter addr (s.readMem addr) ops := by
  induction ops generalizing s with
  | nil => rfl
  | cons op ops ih =>
    rw [State.applyHandlerOps, ih]
    cases op with
    | memWrite a v => simp only [applyHandlerOp, readMem_writeMem, byteAfter, eq_comm]
    | regRead j => rfl
    | regWrite j v => rfl
    | memRead a => rfl

theorem State.handlerLeaves_applyHandlerOps (s : State) (ops : List HandlerOp) (world : World) :
    HandlerLeaves s ops world ((s.applyHandlerOps ops).setWorld world) :=
  have ⟨hfault, htable, _⟩ := s.applyHandlerOps_keeps ops
  ⟨s.readReg_applyHandlerOps ops, s.readMem_applyHandlerOps ops, hfault, htable, rfl⟩

theorem exec_trap_of_invokeTrap_some {arg : Nibble} {n : Byte} {s t : State} {entry : TrapEntry}
    (hentry : s.trapTable[n.toNat]? = some entry) (h : s.invokeTrap entry n arg = some t) :
    exec (.trap arg n) s = .next t := by
  simp [exec, execTrap, trapIndex, hentry, h]

theorem exec_trap_of_invokeTrap_none {arg : Nibble} {n : Byte} {s : State} {entry : TrapEntry}
    (hentry : s.trapTable[n.toNat]? = some entry) (h : s.invokeTrap entry n arg = none) :
    exec (.trap arg n) s = .fault (.handlerNeverReturns n) := by
  simp [exec, execTrap, trapIndex, hentry, h]

/-- Settles O31: by the two answers an oracle handler can give. -/
theorem trapFollowsTheOracle : Obligations.TrapFollowsTheOracle := by
  intro arg n s hentry
  cases hanswer : s.oracleAnswer n arg with
  | returns ops world =>
    have hinvoke : s.invokeTrap .oracle n arg =
        some ((s.serveOracle.applyHandlerOps ops).setWorld world) := by
      simp [State.invokeTrap, hanswer, State.applyAnswer]
    -- serving the oracle changes none of what `HandlerLeaves` compares
    exact ⟨_, exec_trap_of_invokeTrap_some hentry hinvoke,
      s.serveOracle.handlerLeaves_applyHandlerOps ops world⟩
  | blocks =>
    exact exec_trap_of_invokeTrap_none hentry (by simp [State.invokeTrap, hanswer, State.applyAnswer])

/-! ### Source operands that name a half of PC -/

theorem toNat_loByte (t : Addr) : (loByte t).toNat = t.toNat % 256 := by
  simp [loByte, BitVec.extractLsb'_toNat]

theorem toNat_hiByte (t : Addr) : (hiByte t).toNat = t.toNat / 256 := by
  rw [hiByte, BitVec.extractLsb'_toNat, Nat.shiftRight_eq_div_pow]
  have := t.isLt
  omega

theorem State.toNat_readReg_pcl_advance (s : State) :
    (s.advance.readReg Reg.pcl).toNat = (s.pc.toNat + 2) % 256 := by
  have hpcl : s.advance.readReg Reg.pcl = loByte (s.pc + 2) := by
    simp [State.advance, State.readReg_setPc]
  rw [hpcl, toNat_loByte, BitVec.toNat_add]
  exact Nat.mod_mod_of_dvd _ (by decide)

theorem State.toNat_readReg_pch_advance (s : State) :
    (s.advance.readReg Reg.pch).toNat = (s.pc.toNat + 2) % 65536 / 256 := by
  have hpch : s.advance.readReg Reg.pch = hiByte (s.pc + 2) := by
    simp [State.advance, State.readReg_setPc]
  rw [hpch, toNat_hiByte, BitVec.toNat_add]
  rfl

@[simp] theorem addend_zero : addend 0 = 0#8 := rfl

/-- Bit 0 of ST after a compare is z (R138). -/
theorem getLsbD_zero_comparedStatus (st v : Byte) :
    (comparedStatus st v).getLsbD 0 = true ↔ v.toNat = 0 := by
  simp [comparedStatus, isZero, BitVec.toNat_eq]

/-- Settles O40: by the two halves that the advance phase writes, then instruction by instruction. -/
theorem sourceReadsAdvancedPc : Obligations.SourceReadsAdvancedPc := by
  intro s
  have hlo := s.toNat_readReg_pcl_advance
  have hhi := s.toNat_readReg_pch_advance
  have hpair : s.advance.regPair Reg.pch Reg.pcl = s.pc + 2 := s.pc_advance
  refine ⟨fun hfault => by rw [step, hfault], hlo, hhi, fun i => s.readReg_setPc_other _,
    fun a => ⟨_, rfl, ?addi_low⟩, fun a => ⟨_, rfl, ?addi_high⟩, fun a => ⟨_, rfl, ?add⟩, ⟨_, rfl, ?cmp⟩,
    fun a => ⟨_, rfl, ?ld⟩, fun b c => ⟨_, rfl, ?st⟩, ⟨_, rfl, ?jmp⟩⟩
  case addi_low => simpa using hlo
  case addi_high => simpa using hhi
  case add => rw [State.readReg_writeReg_same, BitVec.toNat_add, hhi, hlo]
  case cmp => rw [State.readReg_writeReg_same, getLsbD_zero_comparedStatus, hlo]
  case ld => rw [State.readReg_writeReg_same, hpair, State.advance_readMem]
  case st => rw [State.readMem_writeMem_same, hlo]
  case jmp => rw [State.pc_setPc, hpair]

end Sys2Proof.Machine

/-! PROOFS of the statements on the state: the step as its four phases (O7, O8), the frame of the registers
(O36), the condition bits (O26, O27), ST and PC written as registers (O41, O42), the fault latch (O35), the
world around the core (O39), reset (O44), and the host's loop (O51, O52, O53). -/
namespace Sys2Proof.Machine

/-! ### The step and reset -/

theorem step_of_not_latched {s : State} (h : s.fault = none) :
    step s = exec (decodeWord s.fetchWord) s.advance := by
  rw [step, h]

/-- Settles O7: the head of the two bytes is the word the fetch reads. -/
theorem stepRunsTheDecodedInstruction : Obligations.StepRunsTheDecodedInstruction := by
  intro s i hfault hbytes
  have hword : decodeWord s.fetchWord = i := by cases hbytes; rfl
  rw [step_of_not_latched hfault, hword, State.advance]

/-- Settles O8: the step looks at the latch before the fetch. -/
theorem latchedCoreDoesNotExecute : Obligations.LatchedCoreDoesNotExecute := by
  intro s r hfault
  rw [step, hfault]

/-- Settles O44: by the canonical form of the reset memory and the length of the reset table. -/
theorem resetMeetsInvariant : Obligations.ResetMeetsInvariant :=
  ⟨State.reset_mem_wf, by decide⟩

/-! ### The frame of the registers, and the condition bits -/

/-- Settles O36: over what the execute phase can do. -/
theorem onlyTheDestinationIsWritten : Obligations.OnlyTheDestinationIsWritten := by
  intro i s t r h htrap hdest hpc
  rcases exec_next_cases h with
    ⟨a, v, ha, -, rfl⟩ | ⟨hwrites, -, -, rfl | ⟨p, rfl⟩⟩ | ⟨a, b, c, -, rfl⟩ | ⟨arg, n, rfl, -⟩ |
    ⟨arg, n, entry, rfl, -⟩
  · exact s.readReg_writeReg_other v fun hr => hdest (hr ▸ ha)
  · rfl
  · obtain ⟨hpch, hpcl⟩ := hpc hwrites
    exact s.readReg_setPc_other p hpch hpcl
  · exact s.writeMem_readReg _ _ r
  · cases htrap
  · cases htrap

/-- H is bit 7, so `hlt` keeps bits 6:0 (R145). -/
theorem haltedStatus_and_7F (st : Byte) : haltedStatus st &&& 0x7F#8 = st &&& 0x7F#8 := by
  rw [haltedStatus, BitVec.and_or_distrib_right]
  exact BitVec.or_zero

/-- Settles O27: `hlt` by its own status, every other instruction by the frame of the registers. -/
theorem onlyCompareComputesConditionBits : Obligations.OnlyCompareComputesConditionBits := by
  intro i s t h htrap _ hdest
  by_cases hhlt : i = .hlt
  · subst hhlt
    cases h
    rw [State.readReg_writeReg_same]
    exact ⟨haltedStatus_and_7F _, fun hne => absurd rfl hne⟩
  · have hst : t.readReg Reg.st = s.readReg Reg.st :=
      onlyTheDestinationIsWritten i s t Reg.st h htrap (hdest.resolve_left hhlt)
        fun _ => ⟨Reg.st_ne_pch, Reg.st_ne_pcl⟩
    rw [hst]
    exact ⟨rfl, fun _ => rfl⟩

/-- The bits 2:0 of ST that a compare leaves: one bit for the sign of the compared value, whatever ST held
(R138). -/
theorem comparedStatus_and_07 (st v : Byte) :
    comparedStatus st v &&& 0x07#8 =
      if v = 0x00#8 then 0x01#8 else if v.getLsbD 7 = true then 0x02#8 else 0x04#8 := by
  have hkept : st &&& 0xF8#8 &&& 0x07#8 = 0#8 := by rw [BitVec.and_assoc]; exact BitVec.and_zero
  simp only [comparedStatus, BitVec.and_or_distrib_right, hkept]
  by_cases hzero : v = 0x00#8
  · subst hzero
    rfl
  · have hz : isZero v = false := decide_eq_false hzero
    have hp : isPositive v = !v.getLsbD 7 := by rw [isPositive, decide_eq_true hzero, Bool.true_and]
    rw [hz, hp, isNegative, if_neg hzero]
    cases v.getLsbD 7 <;> rfl

/-- Settles O26: the value compared is zero, else negative, else positive. -/
theorem exactlyOneConditionBitAfterCmp : Obligations.ExactlyOneConditionBitAfterCmp := by
  intro a s t h
  cases h
  rw [State.readReg_writeReg_same, comparedStatus_and_07]
  split_ifs
  · exact .inl rfl
  · exact .inr (.inl rfl)
  · exact .inr (.inr rfl)

/-! ### ST and the halves of PC as destinations -/

/-- Settles O42: ST is read back as any register is, and `halted()` is its bit 7. -/
theorem stIsAnOrdinaryRegister : Obligations.StIsAnOrdinaryRegister := by
  intro v s
  refine ⟨_, rfl, ?_, s.readReg_writeReg_same _ v⟩
  rw [State.halted, State.st_writeReg_st, haltedBit]

theorem State.toNat_pc (s : State) :
    s.pc.toNat = (s.readReg Reg.pch).toNat * 256 + (s.readReg Reg.pcl).toNat :=
  toNat_pair _ _

theorem State.toNat_pc_writeReg_pcl_advance (s : State) (v : Byte) :
    (s.advance.writeReg Reg.pcl v).pc.toNat = (s.pc.toNat + 2) % 65536 / 256 * 256 + v.toNat := by
  rw [State.toNat_pc, State.readReg_writeReg_same, State.readReg_writeReg_other _ _ Reg.pch_ne_pcl,
    State.toNat_readReg_pch_advance]

theorem State.toNat_pc_writeReg_pch_advance (s : State) (v : Byte) :
    (s.advance.writeReg Reg.pch v).pc.toNat = v.toNat * 256 + (s.pc.toNat + 2) % 256 := by
  rw [State.toNat_pc, State.readReg_writeReg_same, State.readReg_writeReg_other _ _ Reg.pcl_ne_pch,
    State.toNat_readReg_pcl_advance]

/-- An instruction with a destination completes, having written that register alone (R22). -/
theorem exec_of_destination {i : Instr} {a : RegIdx} (s : State) (h : destination i = some a) :
    ∃ v, exec i s = .next (s.writeReg a v) := by
  cases i with
  | st | br | jmp | trap => cases h
  | _ => cases h; exact ⟨_, rfl⟩

/-- Settles O41: by what PC is after a write of one of its halves. -/
theorem writingAHalfOfPcJumps : Obligations.WritingAHalfOfPcJumps := by
  refine ⟨fun i s hdest => ?low, fun i s hdest => ?high, fun v s =>
    ⟨⟨_, rfl, s.toNat_pc_writeReg_pcl_advance v⟩, ⟨_, rfl, s.toNat_pc_writeReg_pch_advance v⟩⟩⟩
  case low =>
    obtain ⟨v, hexec⟩ := exec_of_destination s.advance hdest
    exact ⟨_, hexec, by rw [s.toNat_pc_writeReg_pcl_advance, State.readReg_writeReg_same]⟩
  case high =>
    obtain ⟨v, hexec⟩ := exec_of_destination s.advance hdest
    exact ⟨_, hexec, by rw [s.toNat_pc_writeReg_pch_advance, State.readReg_writeReg_same]⟩

/-! ### The fault latch -/

theorem opcode_decodeWord (w : InstrWord) : (decodeWord w).opcode = opField w := by
  unfold decodeWord
  generalize opField w = op
  obtain ⟨n, hn⟩ := op
  interval_cases n <;> rfl

/-- The format of `trap` ignores no bit (R73): the word that decodes to it is its encoding. -/
theorem encode_trap_of_decodeWord {w : InstrWord} {arg : Nibble} {n : Byte}
    (h : decodeWord w = .trap arg n) : encode (.trap arg n) = w := by
  have hop : opField w = 0xF#4 := by rw [← opcode_decodeWord, h]; rfl
  simp only [decodeWord, hop] at h
  obtain ⟨rfl, rfl⟩ := h
  rw [encode, ← hop, wordRI_fields]

/-- Settles O35: of all that the execute phase can do, only raising the fault writes the latch, which was
none before the step. -/
theorem onlyBadTrapIndexSetsLatch : Obligations.OnlyBadTrapIndexSetsLatch := by
  intro s t r hstep hlatched
  obtain ⟨hnone, hexec⟩ := step_next hstep
  have hchanged : t.fault ≠ s.advance.fault := by simp [hlatched, hnone]
  rcases exec_next_cases hexec with
    ⟨a, v, -, -, rfl⟩ | ⟨-, -, -, rfl | ⟨p, rfl⟩⟩ | ⟨a, b, c, -, rfl⟩ | ⟨arg, n, hi, hindex, rfl⟩ |
    ⟨arg, n, entry, -, -, hinvoke⟩
  · exact absurd rfl hchanged
  · exact absurd rfl hchanged
  · exact absurd rfl hchanged
  · exact absurd rfl hchanged
  · refine ⟨arg, n, hi, hindex, ?_⟩
    rw [State.raiseFault_fault, Option.some.injEq] at hlatched
    rw [← hlatched, encode_trap_of_decodeWord hi, State.pc0_advance]
  · exact absurd (State.invokeTrap_keeps hinvoke).1 hchanged

/-! ### The world around the core -/

/-- The registers and memory of `s` with the latch, the Trap Table and the environment of `o`. -/
def State.within (s o : State) : State := { o with regs := s.regs, mem := s.mem }

theorem State.within_eq {s u : State} (hregs : u.regs = s.regs) (hmem : u.mem = s.mem) :
    s.within u = u := by
  rw [State.within, ← hregs, ← hmem]

@[simp] theorem State.within_st (s o : State) : (s.within o).st = s.st := rfl
@[simp] theorem State.within_fetchWord (s o : State) : (s.within o).fetchWord = s.fetchWord := rfl
@[simp] theorem State.within_advance (s o : State) : (s.within o).advance = s.advance.within o := rfl

/-- An instruction other than `trap` neither reads nor writes what lies around registers and memory
(R39, R168). -/
theorem exec_within {i : Instr} {s t : State} (o : State) (hi : isTrap i = false)
    (h : exec i s = .next t) : exec i (s.within o) = .next (t.within o) := by
  cases i with
  | trap arg n => cases hi
  | br m d =>
    cases h
    by_cases htaken : branchTaken m s.st = true
    · simp only [exec, execBr, State.within_st, htaken, if_true]
      rfl
    · simp only [exec, execBr, State.within_st, htaken]
      rfl
  | _ => cases h; rfl

/-- Settles O39: the second core is the first one within the second's surroundings. -/
theorem worldReachesCoreOnlyThroughTrap : Obligations.WorldReachesCoreOnlyThroughTrap := by
  intro s u t hregs hmem _ hu htrap hstep
  refine ⟨t.within u, ?_, rfl, rfl⟩
  have hexec := exec_within u htrap (step_next hstep).2
  rw [← State.within_fetchWord s u, ← State.within_advance, State.within_eq hregs hmem] at hexec
  rw [step_of_not_latched hu, hexec]

/-! ### The host's loop -/

theorem hostRun_of_latched {s : State} {r : FaultRecord} (k : Nat) (h : s.fault = some r) :
    hostRun k s = .faulted r := by
  unfold hostRun
  rw [h]

theorem hostRun_of_halted {s : State} (k : Nat) (hfault : s.fault = none) (h : s.halted = true) :
    hostRun k s = .halted s := by
  unfold hostRun
  rw [hfault, if_pos h]

theorem hostRun_succ_of_next {s t : State} (k : Nat) (h : s.MayStep) (hstep : step s = .next t) :
    hostRun (k + 1) s = hostRun k t := by
  obtain ⟨hfault, hhalted⟩ := h
  simp [hostRun, hfault, hhalted, hstep]

/-- Settles O51: by the equations of the host's loop. -/
theorem runFollowsTheHostLoop : Obligations.RunFollowsTheHostLoop := fun k _ =>
  ⟨fun _ => hostRun_of_latched k, hostRun_of_halted k, fun _ => hostRun_succ_of_next k⟩

/-- A run that has ended is not changed by more steps allowed (R33). -/
theorem hostRun_add_of_ended {k : Nat} {s : State} (m : Nat) (h : ∀ t, hostRun k s ≠ .running t) :
    hostRun (k + m) s = hostRun k s := by
  fun_induction hostRun k s with
  | case1 k s r hfault => exact hostRun_of_latched _ hfault
  | case2 k s hfault hhalted => exact hostRun_of_halted _ hfault hhalted
  | case3 s => exact absurd rfl (h s)
  | case4 s hfault hhalted k t hstep ih =>
    rw [Nat.succ_add, hostRun_succ_of_next _ ⟨hfault, eq_false_of_ne_true hhalted⟩ hstep, ih h]
  | case5 s hfault hhalted k r hstep => simp [Nat.succ_add, hostRun, hfault, hhalted, hstep]
  | case6 s hfault hhalted k r hstep => simp [Nat.succ_add, hostRun, hfault, hhalted, hstep]

/-- The state a run has halted in has H set, and no fault latched: the host looks at both (R33). -/
theorem halted_of_hostRun_halted {k : Nat} {s t : State} (h : hostRun k s = .halted t) :
    t.halted = true ∧ t.fault = none := by
  fun_induction hostRun k s with
  | case2 k s hfault hhalted => cases h; exact ⟨hhalted, hfault⟩
  | case4 s _ _ k u _ ih => exact ih h
  | case1 | case3 | case5 | case6 => cases h

/-- Settles O52: a run that has halted or faulted is not running. -/
theorem endedRunStaysAsItIs : Obligations.EndedRunStaysAsItIs := by
  intro k m s
  refine ⟨fun t h => ⟨?_, halted_of_hostRun_halted h⟩, fun r h => ?_⟩
  · rw [hostRun_add_of_ended m (by simp [h]), h]
  · rw [hostRun_add_of_ended m (by simp [h]), h]

/-- Settles O53: the last step of the run set the latch, and every step before it kept the Trap Table. -/
theorem faultedRunMetABadTrapIndex : Obligations.FaultedRunMetABadTrapIndex := by
  intro k s r hfault h
  fun_induction hostRun k s with
  | case1 k s r' hlatched => simp [hlatched] at hfault
  | case4 s _ _ k t hstep ih =>
    cases ht : t.fault with
    | none =>
      rw [← (step_keepsData hstep).1]
      exact ih ht h
    | some r' =>
      have hr : r' = r := by simpa [hostRun_of_latched k ht] using h
      obtain ⟨arg, n, hdecode, hindex, rfl⟩ := onlyBadTrapIndexSetsLatch s t r' hstep ht
      subst hr
      exact ⟨rfl, arg, n, hdecode, hindex⟩
  | case2 | case3 | case5 | case6 => cases h

end Sys2Proof.Machine

/-! PROOFS of the statements on memory: the bytes a fetch reads and the advance (O6), a store and the fetch
after it (O21), and the frame of memory (O37). -/
namespace Sys2Proof.Machine

/-! ### The bytes of a fetched word (R53) -/

@[simp] theorem firstByte_wordOfBytes (first second : Byte) :
    firstByte (wordOfBytes first second) = first :=
  hiByte_pair first second

@[simp] theorem secondByte_wordOfBytes (first second : Byte) :
    secondByte (wordOfBytes first second) = second :=
  loByte_pair first second

theorem State.firstByte_fetchWord (s : State) : firstByte s.fetchWord = s.readMem s.pc :=
  firstByte_wordOfBytes _ _

theorem State.secondByte_fetchWord (s : State) : secondByte s.fetchWord = s.readMem (s.pc + 1) :=
  secondByte_wordOfBytes _ _

theorem State.toNat_fetchWord (s : State) :
    s.fetchWord.toNat = (s.readMem s.pc).toNat * 256 + (s.readMem (s.pc + 1)).toNat :=
  toNat_append_add _ _

theorem add_one_eq_ofNat_mod (p : Addr) : p + 1 = BitVec.ofNat 16 ((p.toNat + 1) % 65536) := by
  apply BitVec.eq_of_toNat_eq
  rw [BitVec.toNat_add, BitVec.toNat_ofNat]
  exact (Nat.mod_mod _ _).symm

/-! ### The advance phase (R31) -/

theorem State.setPc_writesOnlyPc (s : State) (p : Addr) : WritesOnlyPc s (s.setPc p) :=
  ⟨fun _ => s.readReg_setPc_other p, s.setPc_readMem p, rfl, rfl, rfl⟩

/-- Settles O6: the sum of the word's two bytes, and the advance as a write of PC. -/
theorem fetchIsBigEndianAndAdvanceWraps : Obligations.FetchIsBigEndianAndAdvanceWraps := by
  intro s
  refine ⟨?fetch, ?advance, s.setPc_writesOnlyPc _⟩
  case fetch => rw [← add_one_eq_ofNat_mod, State.toNat_fetchWord]
  case advance => rw [State.pc_advance, BitVec.toNat_add]; rfl

/-! ### A store and the next fetch (R50, R121) -/

/-- A step that executes `st` leaves the advanced state with one byte of memory written (R31, R121). -/
theorem step_st {s t : State} {a b c : RegIdx} (hi : decodeWord s.fetchWord = .st a b c)
    (h : step s = .next t) :
    t = s.advance.writeMem (s.advance.regPair b c) (s.advance.readReg a) := by
  have hexec := (step_next h).2
  rw [hi] at hexec
  cases hexec
  rfl

/-- Settles O21: the fetch reads the byte at PC and the one after it, and a read of the stored byte's address
gives the byte. -/
theorem nextFetchSeesStore : Obligations.NextFetchSeesStore := by
  intro s t a b c hi h
  have hread : t.readMem (s.advance.regPair b c) = s.advance.readReg a := by
    rw [step_st hi h, State.readMem_writeMem_same]
  refine ⟨fun hfirst => ?first, fun hsecond => ?second⟩
  case first => rw [State.firstByte_fetchWord, ← hfirst, hread]
  case second => rw [State.secondByte_fetchWord, ← hsecond, hread]

/-! ### The frame of memory (R50) -/

theorem State.readMem_writeMem_other (s : State) {a b : Addr} (v : Byte) (h : b ≠ a) :
    (s.writeMem a v).readMem b = s.readMem b :=
  Memory.read_write_other s.mem v h

/-- Settles O37: over what the execute phase can do. -/
theorem onlyTheStoredByteChanges : Obligations.OnlyTheStoredByteChanges := by
  intro i s t addr h htrap hstore
  rcases exec_next_cases h with
    ⟨a, v, -, -, rfl⟩ | ⟨-, -, -, rfl | ⟨p, rfl⟩⟩ | ⟨a, b, c, rfl, rfl⟩ | ⟨arg, n, rfl, -⟩ |
    ⟨arg, n, entry, rfl, -⟩
  · exact s.writeReg_readMem a v addr
  · rfl
  · exact s.setPc_readMem p addr
  · have haddr : addr ≠ s.regPair b c := fun heq => hstore (congrArg some heq.symm)
    exact s.readMem_writeMem_other _ haddr
  · cases htrap
  · cases htrap

end Sys2Proof.Machine

/-! PROOFS of the statements on encoding and assembly: words and instructions (O1, O2, O3, O4), an
instruction as bytes (O5), and what the assembler makes of a label (O55, O56). -/
namespace Sys2Proof.Machine

/-! ### The spec's words -/

/-- Settles O1: ten fixed words, each decoded. -/
theorem specWordsDecode : Obligations.SpecWordsDecode := by
  unfold Obligations.SpecWordsDecode
  decide

/-! ### Signed fields (R74, R94) -/

theorem fitsSigned_iff {n : Nat} {d : Int} :
    fitsSigned n d = true ↔ -(2 ^ (n - 1) : Int) ≤ d ∧ d < (2 ^ (n - 1) : Int) := by
  rw [fitsSigned, Bool.and_eq_true, decide_eq_true_iff, decide_eq_true_iff]

theorem fitsSigned_toInt {n : Nat} (v : BitVec n) : fitsSigned n v.toInt = true :=
  fitsSigned_iff.mpr ⟨BitVec.le_toInt v, BitVec.toInt_lt⟩

/-- The range of a displacement (R74). -/
theorem fitsSigned_eight_iff {d : Int} : fitsSigned 8 d = true ↔ -128 ≤ d ∧ d ≤ 127 := by
  rw [fitsSigned_iff]
  omega

/-- A field of at least one bit holds every integer that fits it. -/
theorem toInt_ofInt_of_fitsSigned {n : Nat} (hn : 0 < n) {d : Int} (h : fitsSigned n d = true) :
    (BitVec.ofInt n d).toInt = d := by
  obtain ⟨hlo, hhi⟩ := fitsSigned_iff.mp h
  exact BitVec.toInt_ofInt_eq_self hn hlo hhi

/-! ### Decoding what was encoded (R92) -/

/-- Settles O2: each instruction's fields are read back from the word they were put into, the signed ones by
their range. -/
theorem decodeInvertsEncode : Obligations.DecodeInvertsEncode := by
  intro i h
  cases i with
  | addi a b s =>
    have hs : (BitVec.ofInt 4 s).toInt = s := toInt_ofInt_of_fitsSigned (by decide) h
    simp [encode, decodeWord, hs]
  | br m d =>
    have hd : (BitVec.ofInt 8 d).toInt = d := toInt_ofInt_of_fitsSigned (by decide) h
    simp [encode, decodeWord, hd]
  | _ => simp [encode, decodeWord]

theorem decodeBytes_encodeBytes_append (i : Instr) (rest : List Byte) :
    decodeBytes (encodeBytes i ++ rest) = .ok (decodeWord (encode i), rest) := by
  rw [encodeBytes, List.cons_append, List.cons_append, List.nil_append, decodeBytes,
    wordOfBytes_firstByte_secondByte]

/-- Settles O5: the two bytes make the encoded word, which decodes to the instruction. -/
theorem bytesOfAnInstructionDecode : Obligations.BytesOfAnInstructionDecode := by
  intro i rest h
  rw [decodeBytes_encodeBytes_append, decodeInvertsEncode i h]

/-! ### Every word decodes (R76) -/

theorem wellFormed_decodeWord (w : InstrWord) : (decodeWord w).wellFormed = true := by
  have hop := opcode_decodeWord w
  cases h : decodeWord w with
  | addi a b s =>
    rw [h] at hop
    simp only [decodeWord, ← hop, Instr.opcode] at h
    obtain ⟨-, -, rfl⟩ := h
    exact fitsSigned_toInt _
  | br m d =>
    rw [h] at hop
    simp only [decodeWord, ← hop, Instr.opcode] at h
    obtain ⟨-, rfl⟩ := h
    exact fitsSigned_toInt _
  | _ => rfl

/-- Settles O3: by the opcode, and by the range of a sign-extended field. -/
theorem everyWordDecodes : Obligations.EveryWordDecodes := fun w =>
  ⟨opcode_decodeWord w, wellFormed_decodeWord w⟩

/-! ### Encoding what was decoded (R77) -/

theorem wordRI_append (op a b c : Nibble) : wordRI op a (b ++ c) = wordRRR op a b c := by
  apply BitVec.eq_of_toNat_eq
  rw [toNat_wordRI, toNat_wordRRR, toNat_append_add]
  omega

theorem immField_wordRRR (op a b c : Nibble) : immField (wordRRR op a b c) = b ++ c := by
  rw [← wordRI_append, immField_wordRI]

theorem wordRRR_and (op a b c op' a' b' c' : Nibble) :
    wordRRR op a b c &&& wordRRR op' a' b' c' =
      wordRRR (op &&& op') (a &&& a') (b &&& b') (c &&& c') := by
  simp only [wordRRR, ← BitVec.and_append]

/-- The bits a format uses are whole fields (R73), so what masking keeps is a word of fields. -/
theorem wordRRR_and_usedBits (op a b c : Nibble) :
    wordRRR op a b c &&& usedBits op =
      if op = 0x0#4 then wordRRR op 0 0 0
      else if op = 0xC#4 then wordRRR op a 0 0
      else if op = 0xE#4 then wordRRR op 0 b c
      else wordRRR op a b c := by
  have hmask := wordRRR_and op a b c 0xF
  have hones (x : Nibble) : x &&& 0xF = x := BitVec.and_allOnes
  have hzero (x : Nibble) : x &&& 0 = 0 := BitVec.and_zero
  simp only [hones] at hmask
  split_ifs with hhlt hcmp hjmp
  · rw [hhlt] at hmask ⊢
    exact (hmask 0 0 0).trans (by simp only [hzero])
  · rw [hcmp] at hmask ⊢
    exact (hmask 0xF 0 0).trans (by simp only [hones, hzero])
  · rw [hjmp] at hmask ⊢
    exact (hmask 0 0xF 0xF).trans (by simp only [hones, hzero])
  · have hall : usedBits op = BitVec.allOnes 16 := by
      unfold usedBits
      split
      · exact absurd rfl hhlt
      · exact absurd rfl hcmp
      · exact absurd rfl hjmp
      · rfl
    rw [hall, BitVec.and_allOnes]

/-- Opcode by opcode: the encoder puts back the fields that the decoder read, and 0 elsewhere (R92). -/
theorem encode_decodeWord_wordRRR (op a b c : Nibble) :
    encode (decodeWord (wordRRR op a b c)) = wordRRR op a b c &&& usedBits op := by
  rw [wordRRR_and_usedBits]
  obtain ⟨n, hn⟩ := op
  interval_cases n <;> simp [decodeWord, encode, immField_wordRRR, wordRI_append]

theorem encode_decodeWord (w : InstrWord) : encode (decodeWord w) = w &&& usedBits (opField w) := by
  have h := encode_decodeWord_wordRRR (opField w) (aField w) (bField w) (cField w)
  rwa [wordRRR_fields] at h

/-- Settles O4: two words of one opcode that agree on the used bits have decodings of one encoding, and a
decoded instruction is read back from its encoding. -/
theorem ignoredBitsAreNotExamined : Obligations.IgnoredBitsAreNotExamined := by
  refine ⟨encode_decodeWord, fun v w _ hused => ?_⟩
  have henc : encode (decodeWord v) = encode (decodeWord w) := by
    rw [encode_decodeWord, encode_decodeWord, hused]
  rw [← decodeInvertsEncode _ (wellFormed_decodeWord v), henc,
    decodeInvertsEncode _ (wellFormed_decodeWord w)]

/-! ### Labels (R93, R94) -/

theorem toNat_hiByte_mul_add_toNat_loByte (t : Addr) :
    (hiByte t).toNat * 256 + (loByte t).toNat = t.toNat := by
  rw [← toNat_pair, pair_hiByte_loByte]

theorem decodeBytes_encodeBytes {i : Instr} (h : i.wellFormed = true) :
    decodeBytes (encodeBytes i) = .ok (i, []) := by
  simpa using bytesOfAnInstructionDecode i [] h

/-- Settles O55: the two immediates are the halves of the label's address. -/
theorem labelHalvesMakeTheAddress : Obligations.LabelHalvesMakeTheAddress := by
  intro cursor target a b name table htarget
  refine ⟨_, _, hiByte (BitVec.ofNat 16 target), loByte (BitVec.ofNat 16 target),
    by rw [emitStmt, htarget]; rfl, by rw [emitStmt, htarget]; rfl,
    decodeBytes_encodeBytes rfl, decodeBytes_encodeBytes rfl, ?_⟩
  rw [toNat_hiByte_mul_add_toNat_loByte, BitVec.toNat_ofNat]

theorem emitBranch_of_fits {m : Nibble} {here target : Nat}
    (h : fitsSigned 8 ((target : Int) - here) = true) :
    emitBranch m here target = .ok (encodeBytes (.br m ((target : Int) - here))) := if_pos h

theorem emitBranch_of_not_fits {m : Nibble} {here target : Nat}
    (h : ¬ fitsSigned 8 ((target : Int) - here) = true) :
    emitBranch m here target = .error .branchOutOfRange := if_neg h

theorem emitStmt_brLabel {here target : Nat} {m : Nibble} {name : Label} {table : List (Label × Nat)}
    (h : labelAddress table name = .ok target) :
    emitStmt here table (.brLabel m name) = emitBranch m here target := by
  rw [emitStmt, h]

/-- The displacement from one cursor value to another leads from the address of the first to that of the
second. -/
theorem ofNat_add_displacement (here target : Nat) :
    BitVec.ofNat 16 here + displacement ((target : Int) - here) = BitVec.ofNat 16 target := by
  rw [displacement, ← BitVec.ofInt_natCast, ← BitVec.ofInt_add, ← BitVec.ofInt_natCast]
  congr 1
  omega

/-- PC after a `br` that the advance phase precedes (R130). -/
theorem exec_br_pc (m : Nibble) (d : Int) (s : State) :
    ∃ t, exec (.br m d) s.advance = .next t ∧
      t.pc = if branchTaken m s.st then s.pc + displacement d else s.pc + 2 := by
  refine ⟨_, rfl, ?_⟩
  rw [State.st_advance, State.pc0_advance]
  split <;> simp

/-- Settles O56: the displacement is the difference of the two cursors if it fits 8 signed bits, and added to
the address of the `br` it gives the label's. -/
theorem assembledBranchReachesItsLabel : Obligations.AssembledBranchReachesItsLabel := by
  intro here target m name table htarget
  rw [emitStmt_brLabel htarget]
  constructor
  · intro hlo hhi
    have hfits : fitsSigned 8 ((target : Int) - here) = true :=
      fitsSigned_eight_iff.mpr ⟨hlo, hhi⟩
    refine ⟨_, _, emitBranch_of_fits hfits, decodeBytes_encodeBytes hfits, fun s hpc => ?_⟩
    obtain ⟨t, hexec, ht⟩ := exec_br_pc m ((target : Int) - here) s
    rw [hpc] at ht
    refine ⟨t, hexec, fun htaken => ?_, fun htaken => ?_⟩
    · rw [ht, if_pos htaken, ofNat_add_displacement]
    · rw [ht, if_neg (ne_true_of_eq_false htaken), BitVec.ofNat_add]
      rfl
  · intro hout
    refine emitBranch_of_not_fits fun hfits => ?_
    obtain ⟨hlo, hhi⟩ := fitsSigned_eight_iff.mp hfits
    omega

end Sys2Proof.Machine

/-! PROOFS of the statements on the ALU: each instruction's word decodes to it, and it leaves the state with its
result in the destination and nothing else written (O10 to O18). -/
namespace Sys2Proof.Machine

/-! ### What the ALU instructions have in common (R109) -/

theorem decodeWord_of_eq_encode {w : InstrWord} {i : Instr} (hi : i.wellFormed = true) (hw : w = encode i) :
    decodeWord w = i := by
  rw [hw, decodeInvertsEncode i hi]

theorem State.writeReg_writesOnly (s : State) (a : RegIdx) (v : Byte) : WritesOnly a s (s.writeReg a v) :=
  ⟨fun _ => s.readReg_writeReg_other v, s.writeReg_readMem a v, rfl, rfl, rfl⟩

/-- Settles O10: the immediate is what is written. -/
theorem putLoadsImmediate : Obligations.PutLoadsImmediate := by
  intro a imm s
  refine ⟨decodeWord_of_eq_encode rfl (or_of_fields_imm 0x1#4 a imm), _, rfl, ?result,
    s.writeReg_writesOnly a _⟩
  case result => exact s.readReg_writeReg_same a imm

/-! ### Sums and differences (R101, R102, R108) -/

/-- Settles O11: the sum of two bytes is taken modulo 256. -/
theorem addWrapsModulo256 : Obligations.AddWrapsModulo256 := by
  intro a b c s
  refine ⟨decodeWord_of_eq_encode rfl (or_of_fields 0x2#4 a b c), _, rfl, ?result, s.writeReg_writesOnly a _⟩
  case result => rw [State.readReg_writeReg_same, BitVec.toNat_add]

theorem toNat_sub_eq_emod (v w : Byte) : ((v - w).toNat : Int) = (v.toNat - w.toNat : Int) % 256 := by
  rw [BitVec.toNat_sub]
  have := w.isLt
  omega

/-- Settles O12: the difference of two bytes is the integer difference modulo 256. -/
theorem subWrapsModulo256 : Obligations.SubWrapsModulo256 := by
  intro a b c s
  refine ⟨decodeWord_of_eq_encode rfl (or_of_fields 0x3#4 a b c), _, rfl, ?result, s.writeReg_writesOnly a _⟩
  case result => rw [State.readReg_writeReg_same, toNat_sub_eq_emod]

/-- The addend is `sext_8` of the field that holds it: bit 3 is copied into bits 7:4 (R74, R108). -/
theorem toNat_addend_toInt (c : Nibble) :
    (addend c.toInt).toNat = if c.toNat ≤ 7 then c.toNat else c.toNat + 0xF0 := by
  revert c
  decide

theorem encode_addi_toInt (a b c : Nibble) : encode (.addi a b c.toInt) = wordRRR 0x9#4 a b c := by
  rw [encode, BitVec.ofInt_toInt]

/-- Settles O18: the immediate is the field read as a signed integer. -/
theorem addiAddsSignExtendedField : Obligations.AddiAddsSignExtendedField := by
  intro a b c s
  have hword := (or_of_fields 0x9#4 a b c).trans (encode_addi_toInt a b c).symm
  refine ⟨c.toInt, decodeWord_of_eq_encode (fitsSigned_toInt c) hword, _, rfl, ?result,
    s.writeReg_writesOnly a _⟩
  case result => rw [State.readReg_writeReg_same, BitVec.toNat_add, toNat_addend_toInt]

/-! ### Bitwise operations (R103, R104, R105) -/

/-- Settles O13: each bit of the result is the conjunction of the sources' bits. -/
theorem andIsBitwise : Obligations.AndIsBitwise := by
  intro a b c s
  refine ⟨decodeWord_of_eq_encode rfl (or_of_fields 0x4#4 a b c), _, rfl, fun k => ?bit,
    s.writeReg_writesOnly a _⟩
  case bit => rw [State.readReg_writeReg_same, BitVec.getLsbD_and]

/-- Settles O14: each bit of the result is the disjunction of the sources' bits. -/
theorem orIsBitwise : Obligations.OrIsBitwise := by
  intro a b c s
  refine ⟨decodeWord_of_eq_encode rfl (or_of_fields 0x5#4 a b c), _, rfl, fun k => ?bit,
    s.writeReg_writesOnly a _⟩
  case bit => rw [State.readReg_writeReg_same, BitVec.getLsbD_or]

/-- Settles O15: each bit of the result says whether the sources' bits differ. -/
theorem xorIsBitwise : Obligations.XorIsBitwise := by
  intro a b c s
  refine ⟨decodeWord_of_eq_encode rfl (or_of_fields 0x6#4 a b c), _, rfl, fun k => ?bit,
    s.writeReg_writesOnly a _⟩
  case bit => rw [State.readReg_writeReg_same, BitVec.getLsbD_xor]

/-! ### Shifts (R106, R107, R111) -/

theorem shiftAmount_eq_mod_eight (v : Byte) : shiftAmount v = v.toNat % 8 := rfl

theorem toNat_shiftLeft (v : Byte) (n : Nat) : (shiftLeft v n).toNat = v.toNat * 2 ^ n % 256 := by
  rw [shiftLeft, BitVec.toNat_shiftLeft, Nat.shiftLeft_eq]

theorem toNat_shiftRight (v : Byte) (n : Nat) : (shiftRight v n).toNat = v.toNat / 2 ^ n := by
  rw [shiftRight, BitVec.toNat_ushiftRight, Nat.shiftRight_eq_div_pow]

/-- Settles O16: a left shift by `n` places is a product with `2^n`, modulo 256. -/
theorem shlMultipliesByPowerOfTwo : Obligations.ShlMultipliesByPowerOfTwo := by
  intro a b c s
  refine ⟨decodeWord_of_eq_encode rfl (or_of_fields 0x7#4 a b c), _, rfl, ?result, s.writeReg_writesOnly a _⟩
  case result => rw [State.readReg_writeReg_same, toNat_shiftLeft, shiftAmount_eq_mod_eight]

/-- Settles O17: a right shift by `n` places is a quotient by `2^n`. -/
theorem shrDividesByPowerOfTwo : Obligations.ShrDividesByPowerOfTwo := by
  intro a b c s
  refine ⟨decodeWord_of_eq_encode rfl (or_of_fields 0x8#4 a b c), _, rfl, ?result, s.writeReg_writesOnly a _⟩
  case result => rw [State.readReg_writeReg_same, toNat_shiftRight, shiftAmount_eq_mod_eight]

end Sys2Proof.Machine

/-! PROOFS of the statements on the memory instructions: each one's word decodes to it, and it moves one byte
between x[a] and the address its register pair names (O19, O20). -/
namespace Sys2Proof.Machine

/-- A register pair is an address in base 256, its high byte named first (R52, R122). -/
theorem State.toNat_regPair (s : State) (b c : RegIdx) :
    (s.regPair b c).toNat = (s.readReg b).toNat * 256 + (s.readReg c).toNat :=
  toNat_pair _ _

/-- Settles O19: the byte written to x[a] is the one read at the register pair's address. -/
theorem ldReadsRegisterPairAddress : Obligations.LdReadsRegisterPairAddress := by
  intro a b c s
  refine ⟨decodeWord_of_eq_encode rfl (or_of_fields 0xA#4 a b c), _, rfl, ?result, s.writeReg_writesOnly a _⟩
  case result => rw [State.readReg_writeReg_same, ← s.toNat_regPair, BitVec.ofNat_toNat, BitVec.setWidth_eq]

/-- Settles O20: a write of one byte is read back at its address and nowhere else. -/
theorem stWritesOneByte : Obligations.StWritesOneByte := by
  intro a b c s
  refine ⟨decodeWord_of_eq_encode rfl (or_of_fields 0xB#4 a b c), s.toNat_regPair b c, _, rfl, ?stored,
    fun addr => ?other, s.writeMem_readReg _ _, rfl, rfl, rfl⟩
  case stored => exact s.readMem_writeMem_same _ _
  case other => exact s.readMem_writeMem_other _

end Sys2Proof.Machine

/-! PROOFS of the statements on branch, jump and compare: the test a `br` makes and where it goes (O22), what
`cmp` does to ST (O25), what the two mean together (O23), and the target of `jmp` (O24). -/
namespace Sys2Proof.Machine

/-! ### The branch (R130) -/

/-- The mask's bits 2:0 select no condition bit exactly if their conjunction with ST's is zero. -/
theorem extractLsb'_and_eq_zero_iff (m : Nibble) (st : Byte) :
    m.extractLsb' 0 3 &&& st.extractLsb' 0 3 = 0#3 ↔ ∀ k < 3, ¬ (m.getLsbD k ∧ st.getLsbD k) := by
  rw [BitVec.eq_of_getLsbD_eq_iff]
  refine forall₂_congr fun k hk => ?_
  simp [hk]

theorem branchTaken_iff (m : Nibble) (st : Byte) :
    branchTaken m st = true ↔ m.getLsbD 3 ∨ (m.getLsbD 0 ∧ st.getLsbD 0) ∨
      (m.getLsbD 1 ∧ st.getLsbD 1) ∨ (m.getLsbD 2 ∧ st.getLsbD 2) := by
  rw [branchTaken, Bool.or_eq_true, decide_eq_true_iff, ne_eq, extractLsb'_and_eq_zero_iff]
  simp only [Nat.forall_lt_succ_right, Nat.not_lt_zero, false_implies, implies_true, true_and,
    not_and_or, not_or, not_not, or_assoc]

theorem toNat_add_displacement (p : Addr) (d : Int) :
    ((p + displacement d).toNat : Int) = (p.toNat + d) % 65536 := by
  rw [displacement, BitVec.toNat_add, BitVec.toNat_ofInt]
  omega

/-- `br` has no destination and stores nothing (R22). -/
theorem exec_br_writesOnlyPc {m : Nibble} {d : Int} {s t : State} (h : exec (.br m d) s = .next t) :
    WritesOnlyPc s t :=
  ⟨fun i hpch hpcl => onlyTheDestinationIsWritten _ s t i h rfl nofun fun _ => ⟨hpch, hpcl⟩,
    fun addr => onlyTheStoredByteChanges _ s t addr h rfl nofun, exec_sameOutside h rfl⟩

theorem encode_br_toInt (m : Nibble) (dd : Byte) : encode (.br m dd.toInt) = wordRI 0xD#4 m dd := by
  rw [encode, BitVec.ofInt_toInt]

/-- Settles O22: the branch test bit by bit, and the displacement added as an integer. -/
theorem brTestsMaskAndAddsToPc0 : Obligations.BrTestsMaskAndAddsToPc0 := by
  intro m dd s
  have hword := (or_of_fields_imm 0xD#4 m dd).trans (encode_br_toInt m dd).symm
  obtain ⟨t, hexec, hpc⟩ := exec_br_pc m dd.toInt s
  refine ⟨decodeWord_of_eq_encode (fitsSigned_toInt dd) hword, t, hexec, exec_br_writesOnlyPc hexec,
    ?target⟩
  case target =>
    simp only [branchTaken_iff, State.st] at hpc
    rw [hpc]
    split_ifs
    · exact toNat_add_displacement s.pc dd.toInt
    · rfl

/-! ### The bits of ST after a compare (R138) -/

theorem getLsbD_one_comparedStatus (st v : Byte) : (comparedStatus st v).getLsbD 1 = v.getLsbD 7 := by
  simp [comparedStatus, isNegative]

theorem getLsbD_two_comparedStatus (st v : Byte) :
    (comparedStatus st v).getLsbD 2 = true ↔ v ≠ 0x00#8 ∧ v.getLsbD 7 = false := by
  simp [comparedStatus, isPositive]

theorem getLsbD_comparedStatus_of_three_le (st v : Byte) {k : Nat} (hk : 3 ≤ k) :
    (comparedStatus st v).getLsbD k = st.getLsbD k := by
  by_cases hk8 : k < 8
  · interval_cases k <;> simp [comparedStatus]
  · rw [BitVec.getLsbD_of_ge _ k (by omega), BitVec.getLsbD_of_ge _ k (by omega)]

theorem decodeWord_wordRI_cmp (a : RegIdx) (x : Byte) : decodeWord (wordRI 0xC#4 a x) = .cmp a := by
  simp [decodeWord]

/-- Settles O25: the decoder does not read the low byte of the word, and ST takes the compared status. -/
theorem cmpSetsConditionBits : Obligations.CmpSetsConditionBits := by
  intro a s
  refine ⟨fun x => ?decode, _, rfl, ?bits⟩
  case decode => exact (congrArg decodeWord (or_of_fields_imm 0xC#4 a x)).trans (decodeWord_wordRI_cmp a x)
  case bits =>
    rw [State.readReg_writeReg_same]
    exact ⟨(getLsbD_zero_comparedStatus _ _).trans (BitVec.toNat_eq (y := 0#8)).symm,
      getLsbD_one_comparedStatus _ _, getLsbD_two_comparedStatus _ _,
      fun _ => getLsbD_comparedStatus_of_three_le _ _, s.writeReg_writesOnly _ _⟩

/-! ### The branch after a compare (R130, R138) -/

theorem toNat_eq_zero_iff_toInt (v : Byte) : v.toNat = 0 ↔ v.toInt = 0 := by
  have h := BitVec.toNat_eq (x := v) (y := 0#8)
  rw [← BitVec.toInt_inj] at h
  exact h.symm

theorem getLsbD_seven_iff_toInt_neg (v : Byte) : v.getLsbD 7 = true ↔ v.toInt < 0 := by
  rw [← BitVec.msb_eq_getLsbD_last v, BitVec.msb_eq_toInt, decide_eq_true_iff]

/-- Z, N and P say that the compared value, read as signed, is zero, negative and positive. -/
theorem branchTaken_comparedStatus_iff (m : Nibble) (st v : Byte) :
    branchTaken m (comparedStatus st v) = true ↔ m.getLsbD 3 ∨ (m.getLsbD 0 ∧ v.toInt = 0) ∨
      (m.getLsbD 1 ∧ v.toInt < 0) ∨ (m.getLsbD 2 ∧ 0 < v.toInt) := by
  have hpos : v ≠ 0x00#8 ∧ v.getLsbD 7 = false ↔ 0 < v.toInt := by
    rw [← Bool.not_eq_true, getLsbD_seven_iff_toInt_neg, ne_eq, ← BitVec.toInt_inj, BitVec.toInt_zero]
    omega
  rw [branchTaken_iff, getLsbD_zero_comparedStatus, getLsbD_one_comparedStatus, getLsbD_two_comparedStatus,
    toNat_eq_zero_iff_toInt, getLsbD_seven_iff_toInt_neg, hpos]

/-- Settles O23: each mask selects some of the three cases zero, negative and positive. -/
theorem maskMeaningAfterCompare : Obligations.MaskMeaningAfterCompare := by
  intro a s t h
  cases h
  simp only [State.st_writeReg_st, ← Bool.not_eq_true, branchTaken_comparedStatus_iff]
  generalize (s.readReg a).toInt = x
  refine ⟨by simp, by simp, by simp, ?zeroOrNegative, by simp, ?zeroOrPositive, by simp, ?every,
    fun m hm => .inl hm⟩
  case zeroOrNegative => simpa using le_iff_eq_or_lt.symm
  case zeroOrPositive => simpa [eq_comm] using (le_iff_eq_or_lt (a := 0) (b := x)).symm
  case every => simpa using em (x = 0)

/-! ### The jump (R134) -/

theorem decodeWord_wordRRR_jmp (x : Nibble) (b c : RegIdx) : decodeWord (wordRRR 0xE#4 x b c) = .jmp b c := by
  simp [decodeWord]

/-- Settles O24: the decoder does not read the field `a` of the word, and PC takes the register pair. -/
theorem jmpGoesToRegisterPair : Obligations.JmpGoesToRegisterPair := by
  intro b c s
  refine ⟨fun x => ?decode, _, rfl, ?target, s.setPc_writesOnlyPc _⟩
  case decode => exact (congrArg decodeWord (or_of_fields 0xE#4 x b c)).trans (decodeWord_wordRRR_jmp x b c)
  case target => rw [State.pc_setPc, State.toNat_regPair]

end Sys2Proof.Machine

/-! PROOFS of the statements on the system instructions: `hlt` sets H (O28), and `trap` latches the fault for an
index outside the Trap Table (O29) and runs a scripted handler for an index inside it (O30). -/
namespace Sys2Proof.Machine

/-! ### A trap to a handler (R164, R166) -/

/-- The capability interface reaches registers and memory alone (R8). -/
@[simp] theorem State.applyHandlerOp_env (s : State) (op : HandlerOp) : (s.applyHandlerOp op).env = s.env := by
  cases op <;> rfl

@[simp] theorem State.applyHandlerOps_env (s : State) (ops : List HandlerOp) :
    (s.applyHandlerOps ops).env = s.env := by
  induction ops generalizing s with
  | nil => rfl
  | cons op ops ih => rw [State.applyHandlerOps, ih, State.applyHandlerOp_env]

/-- An oracle handler that the environment scripts to return is invoked with the answer used up (log 5). -/
theorem State.invokeTrap_oracle_of_answers {s : State} {ops : List HandlerOp} {world : World}
    {rest : List HandlerAnswer} (n : Byte) (arg : Nibble) (h : s.env.answers = .returns ops world :: rest) :
    s.invokeTrap .oracle n arg = some ((s.serveOracle.applyHandlerOps ops).setWorld world) := by
  have hanswer : s.oracleAnswer n arg = .returns ops world := by rw [State.oracleAnswer, h]
  rw [State.invokeTrap, hanswer, State.applyAnswer]

/-- Settles O30: `HandlerLeaves` compares nothing that serving the oracle changes, and the handler's accesses
leave the answers that serving left. -/
theorem trapRunsHandler : Obligations.TrapRunsHandler := by
  intro arg n s ops world rest
  refine ⟨decodeWord_of_eq_encode rfl (or_of_fields_imm 0xF#4 arg n), fun hentry hanswers => ?_⟩
  have hinvoke := State.invokeTrap_oracle_of_answers n arg hanswers
  refine ⟨_, exec_trap_of_invokeTrap_some hentry hinvoke,
    s.serveOracle.handlerLeaves_applyHandlerOps ops world, ?answers⟩
  case answers =>
    rw [State.setWorld_answers, State.applyHandlerOps_env, State.serveOracle_answers, hanswers, List.tail_cons]

/-! ### A trap with an index outside the Trap Table (R147, R160) -/

theorem exec_trap_of_trapCount_le {n : Byte} {s : State} (arg : Nibble) (h : s.trapCount ≤ n.toNat) :
    exec (.trap arg n) s = .next (s.raiseFault .trapIndexOutOfBounds (encode (.trap arg n)) s.pc0) := by
  have hentry : s.trapTable[n.toNat]? = none := List.getElem?_eq_none h
  simp [exec, execTrap, trapIndex, hentry]

/-- Settles O29: the record holds the word of the `trap` and, after the advance, the address it was fetched
from. -/
theorem trapIndexOutOfBoundsLatches : Obligations.TrapIndexOutOfBoundsLatches := by
  intro arg n s h
  have hword : 0xF000#16 ||| (arg.setWidth 16 <<< 8) ||| n.setWidth 16 = encode (.trap arg n) :=
    or_of_fields_imm 0xF#4 arg n
  refine ⟨_, exec_trap_of_trapCount_le (s := s.advance) arg h, ?record, rfl, rfl, rfl⟩
  case record => rw [State.raiseFault_fault, State.pc0_advance, hword]

/-! ### `hlt` (R145) -/

theorem decodeWord_hlt (low : BitVec 12) : decodeWord (0x0#4 ++ low) = .hlt := by
  have hop : opField (0x0#4 ++ low) = 0x0#4 := BitVec.extractLsb'_append_eq_left
  simp only [decodeWord, hop]

theorem getLsbD_seven_haltedStatus (st : Byte) : (haltedStatus st).getLsbD 7 = true := by
  simp [haltedStatus]

theorem getLsbD_haltedStatus_of_lt_seven (st : Byte) {k : Nat} (hk : k < 7) :
    (haltedStatus st).getLsbD k = st.getLsbD k := by
  have hmask : (0x80#8).getLsbD k = false := by decide +revert
  rw [haltedStatus, BitVec.getLsbD_or, hmask, Bool.or_false]

/-- Settles O28: the opcode alone decides the decoding, and ST takes H and keeps its bits 6:0. -/
theorem hltSetsHaltedFlagOnly : Obligations.HltSetsHaltedFlagOnly := by
  intro s
  refine ⟨decodeWord_hlt, _, rfl, ?flag, ?halted, fun k hk => ?kept, s.writeReg_writesOnly _ _⟩
  case flag => rw [State.readReg_writeReg_same, getLsbD_seven_haltedStatus]
  case halted => rw [State.halted, State.st_writeReg_st, haltedBit, getLsbD_seven_haltedStatus]
  case kept => rw [State.readReg_writeReg_same, getLsbD_haltedStatus_of_lt_seven _ hk, State.st]

end Sys2Proof.Machine

/-! PROOFS of the statements on exceptions: what keeps a step from answering a next state (O9), and what a `trap`
does whose handler is an oracle of which nothing is assumed (O32), `CONOUT` (O33) or `CONIN` (O34). -/
namespace Sys2Proof.Machine

/-! ### The outcomes of a step (R76, R162) -/

/-- An execute phase answers a next state, or it is that of a `trap` whose handler never returns (R166). -/
theorem exec_next_or_handlerNeverReturns (i : Instr) (s : State) :
    (∃ t, exec i s = .next t) ∨
    (∃ arg n entry, i = .trap arg n ∧ s.trapTable[n.toNat]? = some entry ∧
      s.invokeTrap entry n arg = none ∧ exec i s = .fault (.handlerNeverReturns n)) := by
  cases htrap : isTrap i with
  | false => exact .inl (exec_completes s htrap)
  | true =>
    cases i with
    | trap arg n =>
      rcases execTrap_cases arg n s with
        ⟨-, hexec⟩ | ⟨entry, t, -, -, hexec⟩ | ⟨entry, hentry, hinvoke, hexec⟩
      · exact .inl ⟨_, hexec⟩
      · exact .inl ⟨t, hexec⟩
      · exact .inr ⟨arg, n, entry, rfl, hentry, hinvoke, hexec⟩
    | _ => cases htrap

theorem step_ne_refused (s : State) (r : Refusal) : step s ≠ .refused r := by
  cases hfault : s.fault with
  | some record => simp [latchedCoreDoesNotExecute s record hfault]
  | none =>
    rw [step_of_not_latched hfault]
    rcases exec_next_or_handlerNeverReturns (decodeWord s.fetchWord) s.advance with
      ⟨t, hexec⟩ | ⟨arg, n, entry, -, -, -, hexec⟩
    · simp [hexec]
    · simp [hexec]

/-- Settles O9: with no fault latched the step is an execute phase, and the advance keeps the Trap Table. -/
theorem nothingButAHandlerStopsAStep : Obligations.NothingButAHandlerStopsAStep := by
  intro s
  refine ⟨step_ne_refused s, fun hfault => ?_⟩
  rw [step_of_not_latched hfault]
  exact exec_next_or_handlerNeverReturns (decodeWord s.fetchWord) s.advance

/-! ### A handler that leaves chosen registers and memory (R165, R166) -/

/-- If a handler writes register `i` with no other value than `w`, and either writes it or finds `w` in it, it
leaves `w`. -/
theorem regAfter_eq_of_only_written {i : RegIdx} {v w : Byte} {ops : List HandlerOp}
    (honly : ∀ u, .regWrite i u ∈ ops → u = w) (h : v = w ∨ .regWrite i w ∈ ops) :
    regAfter i v ops = w := by
  induction ops generalizing v with
  | nil => simpa [regAfter] using h
  | cons op ops ih =>
    have hrest : ∀ u, .regWrite i u ∈ ops → u = w := fun u hu => honly u (.tail _ hu)
    cases op with
    | regWrite j u =>
      refine ih hrest ?_
      by_cases hj : j = i
      · subst hj
        exact .inl ((if_pos rfl).trans (honly u (.head _)))
      · simpa [hj, Ne.symm hj] using h
    | regRead | memRead | memWrite => exact ih hrest (by simpa using h)

/-- If a handler writes the byte at `addr` with no other value than `w`, and either writes it or finds `w` in it,
it leaves `w`. -/
theorem byteAfter_eq_of_only_written {addr : Addr} {v w : Byte} {ops : List HandlerOp}
    (honly : ∀ u, .memWrite addr u ∈ ops → u = w) (h : v = w ∨ .memWrite addr w ∈ ops) :
    byteAfter addr v ops = w := by
  induction ops generalizing v with
  | nil => simpa [byteAfter] using h
  | cons op ops ih =>
    have hrest : ∀ u, .memWrite addr u ∈ ops → u = w := fun u hu => honly u (.tail _ hu)
    cases op with
    | memWrite a u =>
      refine ih hrest ?_
      by_cases ha : a = addr
      · subst ha
        exact .inl ((if_pos rfl).trans (honly u (.head _)))
      · simpa [ha, Ne.symm ha] using h
    | regRead | regWrite | memRead => exact ih hrest (by simpa using h)

/-- The accesses of a handler that writes every register and every byte of memory once. -/
def writeAllOps (regs : RegIdx → Byte) (mem : Addr → Byte) : List HandlerOp :=
  List.ofFn (fun k : Fin (2 ^ 4) => .regWrite (.ofFin k) (regs (.ofFin k))) ++
    List.ofFn (fun k : Fin (2 ^ 16) => .memWrite (.ofFin k) (mem (.ofFin k)))

theorem regWrite_mem_writeAllOps {regs : RegIdx → Byte} {mem : Addr → Byte} {i : RegIdx} {u : Byte} :
    .regWrite i u ∈ writeAllOps regs mem ↔ u = regs i := by
  rw [writeAllOps, List.mem_append, List.mem_ofFn, List.mem_ofFn]
  constructor
  · rintro (⟨k, hk⟩ | ⟨k, hk⟩)
    · cases hk
      rfl
    · cases hk
  · rintro rfl
    exact .inl ⟨i.toFin, rfl⟩

theorem memWrite_mem_writeAllOps {regs : RegIdx → Byte} {mem : Addr → Byte} {addr : Addr} {u : Byte} :
    .memWrite addr u ∈ writeAllOps regs mem ↔ u = mem addr := by
  rw [writeAllOps, List.mem_append, List.mem_ofFn, List.mem_ofFn]
  constructor
  · rintro (⟨k, hk⟩ | ⟨k, hk⟩)
    · cases hk
    · cases hk
      rfl
  · rintro rfl
    exact .inr ⟨addr.toFin, rfl⟩

theorem regAfter_writeAllOps (regs : RegIdx → Byte) (mem : Addr → Byte) (i : RegIdx) (v : Byte) :
    regAfter i v (writeAllOps regs mem) = regs i :=
  regAfter_eq_of_only_written (fun _ => regWrite_mem_writeAllOps.mp) (.inr (regWrite_mem_writeAllOps.mpr rfl))

theorem byteAfter_writeAllOps (regs : RegIdx → Byte) (mem : Addr → Byte) (addr : Addr) (v : Byte) :
    byteAfter addr v (writeAllOps regs mem) = mem addr :=
  byteAfter_eq_of_only_written (fun _ => memWrite_mem_writeAllOps.mp) (.inr (memWrite_mem_writeAllOps.mpr rfl))

/-- Settles O32: the environment answers with a handler that writes every register and every byte. -/
theorem unassumedHandlerMayLeaveAnything : Obligations.UnassumedHandlerMayLeaveAnything := by
  intro arg n s regs mem hentry
  obtain ⟨-, hruns⟩ := trapRunsHandler arg n
    { s with env := { s.env with answers := [.returns (writeAllOps regs mem) s.env.world] } }
    (writeAllOps regs mem) s.env.world []
  obtain ⟨t, hexec, ⟨hregs, hmem, -⟩, -⟩ := hruns hentry rfl
  refine ⟨_, t, hexec, fun i => ?reg, fun addr => ?byte⟩
  case reg => rw [hregs, regAfter_writeAllOps]
  case byte => rw [hmem, byteAfter_writeAllOps]

/-! ### The console's handlers (R167) -/

theorem exec_trap_conout {arg : Nibble} {n : Byte} {s : State} (h : s.trapTable[n.toNat]? = some .conout) :
    exec (.trap arg n) s = .next (s.conout arg) :=
  exec_trap_of_invokeTrap_some h rfl

/-- Settles O33: `CONOUT` changes the world alone. -/
theorem conoutAppendsRegister : Obligations.ConoutAppendsRegister := fun _ _ _ hentry =>
  ⟨_, exec_trap_conout hentry, rfl, rfl, rfl, fun _ => rfl, fun _ => rfl, rfl, rfl⟩

theorem State.conin_of_cons {s : State} {v : Byte} {rest : List Byte} (arg : Nibble)
    (h : s.env.world.consoleIn = v :: rest) :
    s.conin arg = some ((s.writeReg arg v).setWorld { s.env.world with consoleIn := rest }) := by
  rw [State.conin, h]

theorem State.conin_of_nil {s : State} (arg : Nibble) (h : s.env.world.consoleIn = []) :
    s.conin arg = none := by
  rw [State.conin, h]

/-- Settles O34: with a byte to come `CONIN` writes one register and the world, with none it waits for ever. -/
theorem coninDeliversNextByte : Obligations.ConinDeliversNextByte := by
  intro arg n s hentry
  refine ⟨fun v rest hin => ?delivers, fun hin => ?waits⟩
  case delivers =>
    exact ⟨_, exec_trap_of_invokeTrap_some hentry (State.conin_of_cons arg hin),
      s.readReg_writeReg_same arg v, rfl, rfl, rfl, fun _ => s.readReg_writeReg_other v, fun _ => rfl, rfl, rfl⟩
  case waits => exact exec_trap_of_invokeTrap_none hentry (State.conin_of_nil arg hin)

end Sys2Proof.Machine

/-! PROOFS of the statements on reset and the loader: the state after `reset()` (O45, O46), one image (O47, O48),
several images (O49), and the launch state (O50). -/
namespace Sys2Proof.Machine

/-! ### Reset (R190 to R195) -/

/-- The reset parameters put into a state, before `reset()` sets ST and PC. -/
def ResetParams.bareState (p : ResetParams) : State where
  regs := p.regInit
  mem := p.memInit
  fault := none
  trapTable := p.trapTable
  env := p.env

theorem State.resetWith_eq_setPc (p : ResetParams) :
    State.resetWith p = (p.bareState.writeReg Reg.st Config.stReset).setPc p.resetPc := rfl

theorem State.pc_resetWith (p : ResetParams) : (State.resetWith p).pc = p.resetPc := by
  rw [State.resetWith_eq_setPc, State.pc_setPc]

theorem State.st_resetWith (p : ResetParams) : (State.resetWith p).st = 0x00#8 := by
  rw [State.resetWith_eq_setPc, State.st_setPc, State.st_writeReg_st, Config.stReset]

theorem State.readReg_resetWith_other (p : ResetParams) {i : RegIdx} (hst : i ≠ Reg.st) (hpch : i ≠ Reg.pch)
    (hpcl : i ≠ Reg.pcl) : (State.resetWith p).readReg i = p.regInit[i.toNat]'i.isLt := by
  rw [State.resetWith_eq_setPc, State.readReg_setPc_other _ _ hpch hpcl, State.readReg_writeReg_other _ _ hst]
  rfl

/-- Settles O45: ST and PC are written over the parameters, which are read back elsewhere. -/
theorem resetGivesEveryState : Obligations.ResetGivesEveryState := fun p =>
  ⟨State.pc_resetWith p, State.st_resetWith p, fun _ => State.readReg_resetWith_other p, fun _ => rfl, rfl, rfl⟩

/-- Settles O46: by PC and ST after reset with the default parameters. -/
theorem resetStateAsTheSpecStates : Obligations.ResetStateAsTheSpecStates := by
  have hst : State.reset.st = 0x00#8 := State.st_resetWith _
  have hhalted : State.reset.halted = false := by rw [State.halted, hst]; rfl
  exact ⟨State.pc_resetWith _, hst, hhalted, rfl, rfl, rfl, hhalted⟩

/-! ### What loading keeps (R15, R197) -/

/-- From `s` to `t` nothing but memory may differ, and the canonical form of memory is not lost. -/
def State.LoadKeeps (s t : State) : Prop :=
  SameRegisters s t ∧ SameOutside s t ∧ (s.mem.wf = true → t.mem.wf = true)

theorem State.LoadKeeps.refl (s : State) : s.LoadKeeps s := ⟨fun _ => rfl, ⟨rfl, rfl, rfl⟩, id⟩

theorem State.LoadKeeps.trans {s t u : State} (h : s.LoadKeeps t) (h' : t.LoadKeeps u) : s.LoadKeeps u := by
  obtain ⟨hregs, ⟨hfault, htable, henv⟩, hwf⟩ := h
  obtain ⟨hregs', ⟨hfault', htable', henv'⟩, hwf'⟩ := h'
  exact ⟨fun i => (hregs' i).trans (hregs i),
    ⟨hfault'.trans hfault, htable'.trans htable, henv'.trans henv⟩, hwf' ∘ hwf⟩

theorem State.LoadKeeps.inv {s t : State} (h : s.LoadKeeps t) (hs : s.Inv) : t.Inv := by
  obtain ⟨-, ⟨-, htable, -⟩, hwf⟩ := h
  exact ⟨hwf hs.1, htable ▸ hs.2⟩

theorem SameRegisters.pc_eq {s t : State} (h : SameRegisters s t) : t.pc = s.pc := by
  rw [State.pc, State.pc, h, h]

theorem State.placePayload_keeps (s : State) (base : Addr) (payload : List Byte) :
    s.LoadKeeps (s.placePayload base payload) := by
  induction payload generalizing s base with
  | nil => exact .refl s
  | cons v rest ih =>
    have hwrite : s.LoadKeeps (s.writeMem base v) := ⟨fun _ => rfl, ⟨rfl, rfl, rfl⟩, Memory.wf_write base v⟩
    exact hwrite.trans (ih _ _)

/-! ### The bytes that a payload places (R197) -/

theorem toNat_add_one (base : Addr) : (base + 1).toNat = (base.toNat + 1) % 65536 := BitVec.toNat_add _ _

theorem State.readMem_placePayload_other {s : State} {base addr : Addr} {payload : List Byte}
    (h : ∀ k < payload.length, (base.toNat + k) % 65536 ≠ addr.toNat) :
    (s.placePayload base payload).readMem addr = s.readMem addr := by
  induction payload generalizing s base with
  | nil => rfl
  | cons v rest ih =>
    have hbase : addr ≠ base := by
      rintro rfl
      exact h 0 (Nat.succ_pos _) (Nat.mod_eq_of_lt addr.isLt)
    have hrest : ∀ k < rest.length, ((base + 1).toNat + k) % 65536 ≠ addr.toNat := by
      intro k hk heq
      refine h (k + 1) (Nat.succ_lt_succ hk) ?_
      rw [toNat_add_one] at heq
      omega
    rw [State.placePayload, ih hrest, State.readMem_writeMem_other _ _ hbase]

/-- No later byte of the payload falls on the address of byte `k` if fewer than 65536 bytes follow it. -/
theorem State.readMem_placePayload_last {s : State} {base addr : Addr} {payload : List Byte} {k : Nat}
    (hk : k < payload.length) (hlast : payload.length ≤ k + 65536)
    (haddr : (base.toNat + k) % 65536 = addr.toNat) :
    (s.placePayload base payload).readMem addr = payload[k] := by
  induction payload generalizing s base k with
  | nil => cases hk
  | cons v rest ih =>
    rw [List.length_cons] at hk hlast
    cases k with
    | zero =>
      obtain rfl : base = addr := BitVec.eq_of_toNat_eq ((Nat.mod_eq_of_lt base.isLt).symm.trans haddr)
      have hrest : ∀ j < rest.length, ((base + 1).toNat + j) % 65536 ≠ base.toNat := by
        intro j hj
        rw [toNat_add_one]
        omega
      rw [State.placePayload, State.readMem_placePayload_other hrest, State.readMem_writeMem_same,
        List.getElem_cons_zero]
    | succ k =>
      have haddr' : ((base + 1).toNat + k) % 65536 = addr.toNat := by
        rw [toNat_add_one]
        omega
      rw [State.placePayload, ih (by omega) (by omega) haddr', List.getElem_cons_succ]

/-! ### One image (R196, R197) -/

/-- A `load` that answers a state was given an origin and a payload, and placed the payload there. -/
theorem State.load_next {s t : State} {image : List Byte} (h : s.load image = .next t) :
    ∃ hi lo payload, image = hi :: lo :: payload ∧ t = s.placePayload (pair hi lo) payload := by
  match image, h with
  | hi :: lo :: payload, h => cases h; exact ⟨hi, lo, payload, rfl, rfl⟩

theorem State.load_eq_refused {s : State} {image : List Byte} (h : image.length < 2) :
    s.load image = .refused .notAnImage := by
  match image, h with
  | [], _ => rfl
  | [_], _ => rfl
  | _ :: _ :: payload, h => exact absurd h (Nat.not_lt.mpr (Nat.le_add_left 2 payload.length))

theorem State.load_completes_iff {s : State} {image : List Byte} :
    (∃ t, s.load image = .next t) ↔ 2 ≤ image.length := by
  constructor
  · rintro ⟨t, h⟩
    obtain ⟨hi, lo, payload, rfl, -⟩ := State.load_next h
    exact Nat.le_add_left 2 payload.length
  · intro h
    match image, h with
    | _ :: _ :: _, _ => exact ⟨_, rfl⟩

theorem imageAddr_cons_cons (hi lo : Byte) (payload : List Byte) (k : Nat) :
    imageAddr (hi :: lo :: payload) k = ((pair hi lo).toNat + k) % 65536 := by
  rw [toNat_pair]
  rfl

theorem State.load_keeps {s t : State} {image : List Byte} (h : s.load image = .next t) : s.LoadKeeps t := by
  obtain ⟨hi, lo, payload, -, rfl⟩ := State.load_next h
  exact s.placePayload_keeps _ payload

theorem State.readMem_load_of_not_covers {s t : State} {image : List Byte} {addr : Addr}
    (h : s.load image = .next t) (hcovers : ¬ Covers image addr) : t.readMem addr = s.readMem addr := by
  obtain ⟨hi, lo, payload, rfl, rfl⟩ := State.load_next h
  refine State.readMem_placePayload_other fun k hk heq => hcovers ⟨k, ?_, ?_⟩
  · exact Nat.add_lt_add_right hk 2
  · rw [imageAddr_cons_cons, heq]

theorem State.readMem_load_last {s t : State} {image : List Byte} {addr : Addr} {k : Nat}
    (h : s.load image = .next t) (hk : k + 2 < image.length) (haddr : imageAddr image k = addr.toNat)
    (hlast : image.length ≤ k + 2 + 65536) : t.readMem addr = image[k + 2] := by
  obtain ⟨hi, lo, payload, rfl, rfl⟩ := State.load_next h
  rw [imageAddr_cons_cons] at haddr
  simp only [List.length_cons] at hk hlast
  exact State.readMem_placePayload_last (by omega) (by omega) haddr

/-- Settles O48: by the length of the byte string. -/
theorem shortImageIsRefused : Obligations.ShortImageIsRefused := fun _ _ => State.load_eq_refused

/-- Settles O47: the payload's bytes as the image's, from its third on. -/
theorem loadPlacesPayload : Obligations.LoadPlacesPayload := by
  intro s hi lo payload
  have hload : s.load (hi :: lo :: payload) = .next (s.placePayload (pair hi lo) payload) := rfl
  obtain ⟨hregs, hout, -⟩ := State.load_keeps hload
  refine ⟨_, hload, fun k hk hlast => ?placed, fun addr hother => ?other, hregs, hout⟩
  case placed =>
    refine State.readMem_load_last hload (Nat.add_lt_add_right hk 2) (Nat.mod_mod _ _).symm ?_
    rw [List.length_cons, List.length_cons]
    omega
  case other =>
    refine State.readMem_load_of_not_covers hload fun ⟨k, hk, heq⟩ => ?_
    exact hother k (Nat.lt_of_add_lt_add_right hk) heq.symm

/-! ### Several images (R198) -/

theorem State.loadAll_cons_next_iff {s t : State} {image : List Byte} {images : List (List Byte)} :
    s.loadAll (image :: images) = .next t ↔ ∃ u, s.load image = .next u ∧ u.loadAll images = .next t := by
  rw [State.loadAll]
  cases s.load image <;> simp

theorem State.loadAll_append_next_iff {s t : State} {before after : List (List Byte)} :
    s.loadAll (before ++ after) = .next t ↔ ∃ u, s.loadAll before = .next u ∧ u.loadAll after = .next t := by
  induction before generalizing s with
  | nil => simp [State.loadAll]
  | cons image before ih =>
    simp only [List.cons_append, State.loadAll_cons_next_iff, ih]
    tauto

/-- A sequence is loaded exactly when each byte string of it is an image. -/
theorem State.loadAll_completes_iff {s : State} {images : List (List Byte)} :
    (∃ t, s.loadAll images = .next t) ↔ ∀ image ∈ images, 2 ≤ image.length := by
  induction images generalizing s with
  | nil => exact ⟨fun _ _ h => absurd h List.not_mem_nil, fun _ => ⟨s, rfl⟩⟩
  | cons image images ih =>
    simp only [State.loadAll_cons_next_iff, List.forall_mem_cons]
    constructor
    · rintro ⟨t, u, hload, hrest⟩
      exact ⟨State.load_completes_iff.mp ⟨u, hload⟩, ih.mp ⟨t, hrest⟩⟩
    · rintro ⟨himage, himages⟩
      obtain ⟨u, hload⟩ := State.load_completes_iff.mpr himage
      obtain ⟨t, hrest⟩ := ih.mpr himages
      exact ⟨t, u, hload, hrest⟩

/-- What the load of each image keeps holds after all of them. -/
theorem State.loadAll_induction {P : State → Prop} {images : List (List Byte)}
    (hP : ∀ image ∈ images, ∀ u v : State, u.load image = .next v → P u → P v) {s t : State}
    (h : s.loadAll images = .next t) (hs : P s) : P t := by
  induction images generalizing s with
  | nil => cases h; exact hs
  | cons image images ih =>
    obtain ⟨u, hload, hrest⟩ := State.loadAll_cons_next_iff.mp h
    exact ih (fun later hlater => hP later (List.mem_cons_of_mem _ hlater)) hrest
      (hP image List.mem_cons_self s u hload hs)

theorem State.loadAll_keeps {s t : State} {images : List (List Byte)} (h : s.loadAll images = .next t) :
    s.LoadKeeps t :=
  State.loadAll_induction (P := s.LoadKeeps) (fun _ _ _ _ hload hu => hu.trans (State.load_keeps hload)) h
    (.refl s)

theorem State.readMem_loadAll_of_not_covers {s t : State} {images : List (List Byte)} {addr : Addr}
    (h : s.loadAll images = .next t) (hcovers : ∀ image ∈ images, ¬ Covers image addr) :
    t.readMem addr = s.readMem addr :=
  State.loadAll_induction (P := fun u => u.readMem addr = s.readMem addr)
    (fun image himage _ _ hload => (State.readMem_load_of_not_covers hload (hcovers image himage)).trans) h rfl

/-- The byte is the one that the last image to cover the address placed there last. -/
theorem State.readMem_loadAll_last {s t : State} {before after : List (List Byte)} {image : List Byte}
    {addr : Addr} {k : Nat} (h : s.loadAll (before ++ image :: after) = .next t) (hk : k + 2 < image.length)
    (haddr : imageAddr image k = addr.toNat) (hlast : image.length ≤ k + 2 + 65536)
    (hafter : ∀ later ∈ after, ¬ Covers later addr) : t.readMem addr = image[k + 2] := by
  obtain ⟨u, -, hrest⟩ := State.loadAll_append_next_iff.mp h
  obtain ⟨v, hload, hlater⟩ := State.loadAll_cons_next_iff.mp hrest
  rw [State.readMem_loadAll_of_not_covers hlater hafter, State.readMem_load_last hload hk haddr hlast]

/-- Settles O49: by what each of the two loads places and leaves. -/
theorem laterImageWins : Obligations.LaterImageWins := by
  intro s hi lo hi' lo' first second
  obtain ⟨u, hu, hfirst, -⟩ := loadPlacesPayload s hi lo first
  obtain ⟨t, ht, hsecond, hother, -⟩ := loadPlacesPayload u hi' lo' second
  have hloadAll : s.loadAll [hi :: lo :: first, hi' :: lo' :: second] = .next t :=
    State.loadAll_cons_next_iff.mpr ⟨u, hu, State.loadAll_cons_next_iff.mpr ⟨t, ht, rfl⟩⟩
  refine ⟨t, hloadAll, hsecond, fun k hk hlast hdisjoint => ?_⟩
  rw [hother _ fun j hj heq => hdisjoint j hj (heq.symm.trans (Nat.mod_mod _ _)), hfirst k hk hlast]

/-! ### The launch state (R199) -/

/-- Settles O50: every load keeps what `reset()` left outside memory, and the last image that covers an address
decides its byte. -/
theorem launchStateIsResetPlusLoads : Obligations.LaunchStateIsResetPlusLoads := by
  intro p images
  refine ⟨State.loadAll_completes_iff.mpr, fun t h => ?_⟩
  have hkeeps : (State.resetWith p).LoadKeeps t := State.loadAll_keeps h
  have ⟨hregs, hout, _⟩ := hkeeps
  refine ⟨State.loadAll_completes_iff.mp ⟨t, h⟩, ?pc, hregs, hout,
    fun _ => State.readMem_loadAll_of_not_covers h, ?covered, hkeeps.inv⟩
  case pc => rw [hregs.pc_eq, State.pc_resetWith]
  case covered =>
    rintro before after image addr k hk rfl
    exact State.readMem_loadAll_last h hk

end Sys2Proof.Machine
